-- ==== Sys2Proof/Word.lean ====
section
/-! DEFINITION. The Word and the byte: the two bit-vector types of the machine (spec 10_state.md R10, 30_encoding.md R47).
The functions that read and make Words (R11, R12) are in `Sys2Proof/Machine/Repack.lean`. -/

namespace Sys2Proof

/-- A Word: one untagged 64-bit vector and nothing else (10_state.md R10; 90_conflicts.md C1). Equality of Words is
equality of the 64 bits (R13). -/
abbrev Word := BitVec 64

/-- One byte of a program image (20_memory.md R34). -/
abbrev Byte := BitVec 8

end Sys2Proof
end

