-- ==== Sys2Proof/Config.lean ====
section
/-! DEFINITION. The implementation parameters of 00_scope.md R5. `XLEN`, `IPLEN` and the one-byte tag are fixed in types
(`Word`, `Byte`); there is no `VERSION_PREFIX` (30_encoding.md R56). -/

namespace Sys2Proof.Config

/-- `C`, the stack capacity in Words: "reference value 90" (00_scope.md R5, decision D2). The step reads the capacity
from `State.cap`, whose value at `State.reset` this is; no rule depends on the number (log 2). -/
def stackCapacity : Nat := 90

/-- `TAG_BYTES` (R5, decision D3). -/
def tagBytes : Nat := 1

/-- `OPERAND_BYTES` (R5). -/
def operandBytes : Nat := 8

/-- `RECORD_BYTES = TAG_BYTES + OPERAND_BYTES` (R5). -/
def recordBytes : Nat := tagBytes + operandBytes

/-- `NMAX = 2^63 - 1`, the largest program length the core accepts (R5, decision D13; log 16). -/
def nmax : Nat := 9223372036854775807

end Sys2Proof.Config
end

