-- ==== Sys2Proof/Syntax.lean ====
section
/-! DEFINITION. The instructions: one constructor per row of spec/opcode_table.json. -/

namespace Sys2Proof

/-- An Instruction: the pair of an opcode (the constructor) and a 64-bit operand, which is always present, used or not
(10_state.md R27). Two Instructions are equal when opcode and operand are equal bit for bit. -/
inductive Instr where
  /-- `PUSH(op)`, tag 0x00 (41_stack_data.md R73). -/
  | push (op : Word)
  /-- `PLUS`, tag 0x01; the operand is stored but unused (42_arithmetic.md R79, 30_encoding.md R51). -/
  | plus (op : Word)
  /-- `MINUS`, tag 0x02; the operand is stored but unused (R80, R51). -/
  | minus (op : Word)
  /-- `MULTIPLY`, tag 0x03; the operand is stored but unused (R81, R51). -/
  | multiply (op : Word)
  /-- `DIVIDE`, tag 0x04; the operand is stored but unused (R82, R51). -/
  | divide (op : Word)
  /-- `DUMP`, tag 0x05; the operand is stored but unused (43_diagnostic.md R83, R51). -/
  | dump (op : Word)
  /-- `JUMP(op)`, tag 0x06 (44_control.md R84). -/
  | jump (op : Word)
  /-- `DUPLICATE(op)`, tag 0x07 (41_stack_data.md R74). -/
  | duplicate (op : Word)
  deriving DecidableEq, Repr

end Sys2Proof
end

