-- ==== Sys2Proof/WellFormed.lean ====
section
/-! DEFINITION. What is well formed: an instruction, a program, a program image. -/

namespace Sys2Proof

/-- Every Instruction is well formed: it has one of the eight opcodes and a 64-bit operand, and "operand bits never make
an encoding illegal" (30_encoding.md R53, R55). One line per constructor, so that a new instruction must be decided. -/
def Instr.wf : Instr → Bool
  | .push _ => true
  | .plus _ => true
  | .minus _ => true
  | .multiply _ => true
  | .divide _ => true
  | .dump _ => true
  | .jump _ => true
  | .duplicate _ => true

/-- A program is well formed when each of its instructions is and it has at most `NMAX` of them (00_scope.md R5,
30_encoding.md R57). The empty program is well formed (10_state.md R28). -/
def Program.wf (p : List Instr) : Bool :=
  decide (p.length ≤ Config.nmax) && p.all Instr.wf

/-- The tag bytes of an image: byte 0 of every whole record (30_encoding.md R47, R52). -/
def Image.tags : List Byte → List Byte
  | r0 :: _ :: _ :: _ :: _ :: _ :: _ :: _ :: _ :: rest => r0 :: Image.tags rest
  | _ => []

/-- An image is well formed when no byte is left over, it has at most `NMAX` records, and every tag is one of the eight
(30_encoding.md R54, R55). -/
def Image.wf (img : List Byte) : Bool :=
  decide (img.length % Config.recordBytes = 0) &&
    (decide (img.length / Config.recordBytes ≤ Config.nmax) &&
      (Image.tags img).all (fun t => decide (t.toNat ≤ 7)))

end Sys2Proof
end

