-- ==== Sys2Proof/Decode.lean ====
section
/-! DEFINITION. The program codec (30_encoding.md): the strict decoder, total on every byte sequence and rejecting by
name, and after it the encoder, both written from the tables of R47 and R49. -/

namespace Sys2Proof

/-- Why an image is refused at load time (30_encoding.md R54, 60_exceptions.md R103; the kinds are decision D6, log 9). -/
inductive DecodeError where
  /-- `ResidualBytes(r)`: `r` bytes do not form a whole record. -/
  | residualBytes (r : Nat)
  /-- `TooLong`: more than `NMAX` records. -/
  | tooLong
  /-- `UnknownOpcode(i, t)`: record `i` has the unrecognised tag `t`. -/
  | unknownOpcode (i : Nat) (t : Byte)
  deriving DecidableEq, Repr

/-- What `decode` returns: `Program(PROG, N)` (with `N` the list's length) or a fatal decode error (R54). -/
inductive Decoded where
  | program (p : List Instr)
  | error (e : DecodeError)
  deriving DecidableEq, Repr

/-- `le64(b0..b7) = b7 ++ b6 ++ ... ++ b0` (00_scope.md R7): the operand Word of eight bytes in image order (R50). -/
def le64 (b0 b1 b2 b3 b4 b5 b6 b7 : Byte) : Word :=
  b7 ++ b6 ++ b5 ++ b4 ++ b3 ++ b2 ++ b1 ++ b0

/-- The opcode map of 30_encoding.md R49 read from tag to instruction; a tag of 8 to 255 selects none (R55). -/
def instrOfTag (t : Byte) (op : Word) : Option Instr :=
  match t.toNat with
  | 0 => some (.push op)
  | 1 => some (.plus op)
  | 2 => some (.minus op)
  | 3 => some (.multiply op)
  | 4 => some (.divide op)
  | 5 => some (.dump op)
  | 6 => some (.jump op)
  | 7 => some (.duplicate op)
  | _ => none

/-- The decoding loop of 30_encoding.md R54, from record number `i` on, in ascending order; the first unrecognised tag is
the one reported. The last case is never met by `decode`, which has checked the length before. -/
def decodeFrom (i : Nat) : List Byte → Decoded
  | [] => .program []
  | r0 :: r1 :: r2 :: r3 :: r4 :: r5 :: r6 :: r7 :: r8 :: rest =>
    match instrOfTag r0 (le64 r1 r2 r3 r4 r5 r6 r7 r8) with
    | none => .error (.unknownOpcode i r0)
    | some ins =>
      match decodeFrom (i + 1) rest with
      | .program p => .program (ins :: p)
      | .error e => .error e
  | residue => .error (.residualBytes residue.length)

/-- The decoder of 30_encoding.md R54: the length is checked first, then `NMAX` (90_conflicts.md C10), then the tags from
index 0 upward. All or nothing: no partial program. -/
def decode (img : List Byte) : Decoded :=
  if img.length % Config.recordBytes ≠ 0 then .error (.residualBytes (img.length % Config.recordBytes))
  else if Config.nmax < img.length / Config.recordBytes then .error .tooLong
  else decodeFrom 0 img

/-- The operand field of an Instruction (10_state.md R27). -/
def Instr.operand : Instr → Word
  | .push op => op
  | .plus op => op
  | .minus op => op
  | .multiply op => op
  | .divide op => op
  | .dump op => op
  | .jump op => op
  | .duplicate op => op

/-- `tag(opcode)`: the opcode map of 30_encoding.md R49 read from instruction to tag (decision D4, log 8). -/
def Instr.tag : Instr → Byte
  | .push _ => 0x00
  | .plus _ => 0x01
  | .minus _ => 0x02
  | .multiply _ => 0x03
  | .divide _ => 0x04
  | .dump _ => 0x05
  | .jump _ => 0x06
  | .duplicate _ => 0x07

/-- Byte `k` of an operand: bits `8k+7 : 8k` (30_encoding.md R47, R50). -/
def operandByte (op : Word) (k : Nat) : Byte := op.extractLsb' (8 * k) 8

/-- `enc1` of 30_encoding.md R53: the tag, then the eight operand bytes, least significant first. -/
def encodeInstr (i : Instr) : List Byte :=
  [i.tag, operandByte i.operand 0, operandByte i.operand 1, operandByte i.operand 2, operandByte i.operand 3,
    operandByte i.operand 4, operandByte i.operand 5, operandByte i.operand 6, operandByte i.operand 7]

/-- `encode` of 30_encoding.md R53: the records in index order and nothing else (R52). -/
def encode : List Instr → List Byte
  | [] => []
  | i :: rest => encodeInstr i ++ encode rest

/-- The nine bytes of a record given as the 72-bit number `rec` of 30_encoding.md R48, `rec[7:0]` first. -/
def recordOfNat (w : Nat) : List Byte :=
  [BitVec.ofNat 8 w, BitVec.ofNat 8 (w / 256), BitVec.ofNat 8 (w / 256 ^ 2), BitVec.ofNat 8 (w / 256 ^ 3),
    BitVec.ofNat 8 (w / 256 ^ 4), BitVec.ofNat 8 (w / 256 ^ 5), BitVec.ofNat 8 (w / 256 ^ 6),
    BitVec.ofNat 8 (w / 256 ^ 7), BitVec.ofNat 8 (w / 256 ^ 8)]

/-- The instruction that `decode` reads from the one-record image whose 72-bit view has `w` in its low `nbits` bits and
zeros above (R48; spec/opcode_table.json). A word of more than 72 bits is no record (log 23). -/
def decodeTableWord (nbits w : Nat) : Option Instr :=
  if 72 < nbits then none
  else
    match decode (recordOfNat (w % 2 ^ nbits)) with
    | .program [i] => some i
    | _ => none

end Sys2Proof
end

