-- ==== Sys2Proof/Machine/Repack.lean ====
section
/-! DEFINITION. Repacking: reading a Word as a number, making a Word from one (10_state.md R11, R12, R15; the notation of
00_scope.md R6). -/

namespace Sys2Proof.Machine

/-- `u64(w)`, the unsigned value (00_scope.md R6). -/
def u64 (w : Word) : Nat := w.toNat

/-- `s64(w)`, the two's-complement value: `u64(w)` when bit 63 is 0, `u64(w) - 2^64` when it is 1 (R6; log 21). -/
def s64 (w : Word) : Int := if w.getLsbD 63 then (w.toNat : Int) - 18446744073709551616 else (w.toNat : Int)

/-- `bits64(z)`: the Word `w` with `u64(w) = z mod 2^64`, the non-negative modulus (R6). -/
def bits64 (z : Int) : Word := BitVec.ofNat 64 (z % 18446744073709551616).toNat

/-- `MIN64` (R6). -/
def min64 : Int := -9223372036854775808

/-- `MAX64` (R6). -/
def max64 : Int := 9223372036854775807

/-- `trunc_div(a, b) = sign(a)·sign(b)·floor(|a| / |b|)`, for `b ≠ 0` (00_scope.md R7). -/
def truncDiv (a b : Int) : Int := a.sign * b.sign * ((a.natAbs / b.natAbs : Nat) : Int)

/-- `from_signed`, for an integer in `MIN64 .. MAX64` (10_state.md R11). -/
def fromSigned (z : Int) : Word := bits64 z

/-- `from_unsigned`, for an integer in `0 .. 2^64-1` (R11). -/
def fromUnsigned (n : Nat) : Word := bits64 n

/-- `as_signed` (R12). -/
def asSigned (w : Word) : Int := s64 w

/-- `as_unsigned` (R12). -/
def asUnsigned (w : Word) : Nat := u64 w

/-- An IEEE-754 binary64 datum by its fields: sign bit 63, biased exponent bits 62:52, fraction bits 51:0 (R15; the
layout is the spec's general knowledge, log 21). -/
structure Binary64 where
  sign : Bool
  exponent : BitVec 11
  fraction : BitVec 52
  deriving DecidableEq, Repr

/-- The classes of R15. -/
inductive FloatClass where
  | zero
  | subnormal
  | normal
  | infinity
  | nan
  deriving DecidableEq, Repr

/-- `as_float`: the datum whose bit pattern is `w` (R12, R15). -/
def asFloat (w : Word) : Binary64 where
  sign := w.getLsbD 63
  exponent := w.extractLsb' 52 11
  fraction := w.extractLsb' 0 52

/-- `from_float`: the bit pattern of `f`, unchanged; a NaN keeps sign, quiet bit and payload (R11). -/
def fromFloat (f : Binary64) : Word := BitVec.ofBool f.sign ++ f.exponent ++ f.fraction

/-- The class of a datum (R15). -/
def floatClass (f : Binary64) : FloatClass :=
  if f.exponent = 0 then (if f.fraction = 0 then .zero else .subnormal)
  else if f.exponent = 0x7FF then (if f.fraction = 0 then .infinity else .nan)
  else .normal

/-- The value of a finite datum as `m` and `e` with value `m * 2^e`: bias 1023, 52 fraction bits, a leading 1 unless the
exponent field is 0 (R15; log 21). `none` for an infinity or a NaN. -/
def floatValue (f : Binary64) : Option (Int × Int) :=
  let signed (m : Nat) : Int := if f.sign then -(m : Int) else (m : Int)
  match floatClass f with
  | .zero => some (0, -1074)
  | .subnormal => some (signed f.fraction.toNat, -1074)
  | .normal => some (signed (4503599627370496 + f.fraction.toNat), (f.exponent.toNat : Int) - 1075)
  | .infinity => none
  | .nan => none

end Sys2Proof.Machine
end

