-- ==== Sys2Proof/Machine/State.lean ====
section
/-! DEFINITION. The state of one core as plain data (10_state.md), the events it emits, why it halts and why a step can
stop, and the state after reset. -/

namespace Sys2Proof.Machine

/-- The eight opcodes, as the diagnostic event names them (10_state.md R27, R28). -/
inductive Opcode where
  | push
  | plus
  | minus
  | multiply
  | divide
  | dump
  | jump
  | duplicate
  deriving DecidableEq, Repr

/-- The six semantic-layer errors, the only exceptions of the core (60_exceptions.md R88). -/
inductive ErrorKind where
  /-- A binary operator found `SP < 2`. -/
  | notEnoughOperands
  /-- The divisor, the Word under the top, is the zero Word. -/
  | divisionByZero
  /-- A push was attempted with `SP = C`. -/
  | stackOverflow
  /-- The jump target is above `LEN`. -/
  | illegalPointer
  /-- The duplicate index is not below `SP`. -/
  | indexOutOfRange
  /-- A checked signed 64-bit result is not representable. -/
  | overflow
  deriving DecidableEq, Repr

/-- The storage-layer errors of the stack primitives (60_exceptions.md R90). `overflow` here is `Stack.Overflow`, a full
stack, not the arithmetic `Overflow` (90_conflicts.md C4). -/
inductive StorageError where
  | overflow
  | underflow
  | indexError
  deriving DecidableEq, Repr

/-- An event of `OUT` (10_state.md R28): raw Words, bottom of the stack first, no text (43_diagnostic.md R83,
60_exceptions.md R94; log 19). -/
inductive Event where
  /-- `Dump(words)`, by the DUMP instruction. -/
  | dump (words : List Word)
  /-- `Diag(kind, words, index, opcode, operand)`, by the halt transition. -/
  | diag (kind : ErrorKind) (words : List Word) (index : Word) (opcode : Opcode) (operand : Word)
  deriving DecidableEq, Repr

/-- The state of one core: its registers and stack (10_state.md sections 2 and 3), the output it has emitted (R28), and
the two parameters of a run that the step reads and never writes. -/
structure State where
  /-- `STK[0] .. STK[SP-1]`: the live cells, bottom first (R16). Dead cells are not state (R16; log 3). -/
  stk : List Word
  /-- `IP`, the index of the next instruction (R22). -/
  ip : Word
  /-- `LEN`, the program-length register (R23). -/
  len : Word
  /-- `HALTED` (R24). -/
  halted : Bool
  /-- `CAUSE` (R25): `none` is `None`; the codes are `causeCode`. -/
  cause : Option ErrorKind
  /-- `OUT`, the events emitted since reset, oldest first (R28; log 4). -/
  out : List Event
  /-- `PROG`, the loaded program: a parameter of the run (R28; log 1). -/
  prog : List Instr
  /-- `C`, the stack capacity: fixed at construction (00_scope.md R5; log 2). -/
  cap : Nat
  deriving DecidableEq, Repr

/-- Why a step stops. No instruction faults: these are states in which no step is enabled (40_engine_loop.md R71), and
one that no run reaches. -/
inductive Fault where
  /-- Raised by `step` in a halted state: "nothing is enabled", the treatment is `stuck` (R71, 93_implementation_defined.md
  U11). Safe: the spec gives the state no successor (log 5). -/
  | haltedCore
  /-- Raised by `step` in a finished state on which Finish is not enabled (R71). Safe, for the same reason (log 5). -/
  | finishedCore
  /-- Raised by `step` where `IP < LEN` but `PROG` has no instruction at `IP`. No reachable state is such (R66,
  10_state.md R33), and the spec gives it no meaning. Safe: the model stops (log 6). -/
  | fetchOutsideProgram
  deriving DecidableEq, Repr

/-- Why an instruction has no meaning in the model. -/
inductive Refusal where
  /-- Raised by an arm of `exec` whose instruction is not modelled yet; no arm does. Safe: the model stops. -/
  | notModelled (mnemonic : String)
  deriving DecidableEq, Repr

/-- The reset state of a core of capacity `cap` with the program `prog` loaded (10_state.md R32, 70_reset_and_hazards.md
R105): `IP <- 0 ; LEN <- N ; HALTED <- 0 ; CAUSE <- None ; SP <- 0 ; OUT <- empty`. -/
def State.fresh (cap : Nat) (prog : List Instr) : State where
  stk := []
  ip := 0
  len := BitVec.ofNat 64 prog.length
  halted := false
  cause := none
  out := []
  prog := prog
  cap := cap

/-- The machine right after reset with nothing loaded: the reset state of the empty program (R32, R107; log 7). -/
def State.reset : State := State.fresh Config.stackCapacity []

end Sys2Proof.Machine
end

