-- ==== Sys2Proof/Machine/Flags.lean ====
section
/-! DEFINITION. The machine has no flags (10_state.md R26). What stands in their place is here: the range check that decides
an arithmetic error, the re-tagging of storage errors, and the codes of `CAUSE`. -/

namespace Sys2Proof.Machine

/-- `MIN64 ≤ r ≤ MAX64` (42_arithmetic.md R78). -/
def inRange (r : Int) : Bool := decide (min64 ≤ r) && decide (r ≤ max64)

/-- The re-tagging of a storage-layer error as a semantic-layer one (60_exceptions.md R90). -/
def retag : StorageError → ErrorKind
  | .overflow => .stackOverflow
  | .underflow => .notEnoughOperands
  | .indexError => .indexOutOfRange

/-- The number `CAUSE` holds (60_exceptions.md R88; decision D14, log 19). -/
def causeCode : Option ErrorKind → BitVec 3
  | none => 0
  | some .notEnoughOperands => 1
  | some .divisionByZero => 2
  | some .stackOverflow => 3
  | some .illegalPointer => 4
  | some .indexOutOfRange => 5
  | some .overflow => 6

/-- What a code of `CAUSE` stands for; 7 is never written and stands for nothing (R88). -/
def causeOfCode (c : BitVec 3) : Option (Option ErrorKind) :=
  match c.toNat with
  | 0 => some none
  | 1 => some (some .notEnoughOperands)
  | 2 => some (some .divisionByZero)
  | 3 => some (some .stackOverflow)
  | 4 => some (some .illegalPointer)
  | 5 => some (some .indexOutOfRange)
  | 6 => some (some .overflow)
  | _ => none

end Sys2Proof.Machine
end

