-- ==== Sys2Proof/Machine/Operands.lean ====
section
/-! DEFINITION. The operand forms (30_encoding.md R50, R51) and the opcode of an instruction (10_state.md R27). The operand
field itself is `Instr.operand`. -/

namespace Sys2Proof.Machine

/-- The opcode of an Instruction (10_state.md R27). -/
def opcodeOf : Instr → Opcode
  | .push _ => .push
  | .plus _ => .plus
  | .minus _ => .minus
  | .multiply _ => .multiply
  | .divide _ => .divide
  | .dump _ => .dump
  | .jump _ => .jump
  | .duplicate _ => .duplicate

/-- The Instruction of an opcode and an operand (10_state.md R27). -/
def instrOf : Opcode → Word → Instr
  | .push, op => .push op
  | .plus, op => .plus op
  | .minus, op => .minus op
  | .multiply, op => .multiply op
  | .divide, op => .divide op
  | .dump, op => .dump op
  | .jump, op => .jump op
  | .duplicate, op => .duplicate op

/-- Whether an opcode needs its operand: "only for PUSH, JUMP, DUPLICATE" (10_state.md R27, 30_encoding.md R49). -/
def operandUsed : Opcode → Bool
  | .push => true
  | .plus => false
  | .minus => false
  | .multiply => false
  | .divide => false
  | .dump => false
  | .jump => true
  | .duplicate => true

/-- `PUSH` uses the raw Word (30_encoding.md R50). -/
def pushOperand (op : Word) : Word := op

/-- `JUMP` reads the operand with `u64` (30_encoding.md R50, 44_control.md R84): an absolute instruction index. -/
def jumpTarget (op : Word) : Nat := u64 op

/-- `DUPLICATE` reads the operand with `u64` (30_encoding.md R50, 41_stack_data.md R74): a top-relative stack index. -/
def duplicateIndex (op : Word) : Nat := u64 op

end Sys2Proof.Machine
end

