-- ==== Sys2Proof/Machine/Ops.lean ====
section
/-! DEFINITION. The named operations over the state: the stack primitives (10_state.md section 2), output, the advance of
`IP`, the halt transition, which is how this machine takes an exception (60_exceptions.md section 3), reset, which is the
only way out of it (R96), and the predicates and transitions of the engine loop (40_engine_loop.md). -/

namespace Sys2Proof.Machine

/-- `length()`: the current element count (10_state.md R20). The spec's `SP`. -/
def State.sp (s : State) : Nat := s.stk.length

/-- `STK` replaced. -/
def State.setStk (s : State) (stk : List Word) : State := { s with stk := stk }

/-- `IP <- v`. -/
def State.setIp (s : State) (v : Word) : State := { s with ip := v }

/-- `emit e`: append an event to `OUT` (00_scope.md R7). -/
def State.emit (s : State) (e : Event) : State := { s with out := s.out ++ [e] }

/-- `push(v)`: append at the top; fails with `Stack.Overflow` when `SP = C`, with no effect (10_state.md R17). -/
def push (v : Word) (s : State) : Except StorageError State :=
  if s.sp = s.cap then .error .overflow else .ok (s.setStk (s.stk ++ [v]))

/-- `pop()`: remove and return the top; fails with `Stack.Underflow` when empty (10_state.md R18). -/
def pop (s : State) : Except StorageError (Word × State) :=
  match s.stk.getLast? with
  | none => .error .underflow
  | some v => .ok (v, s.setStk s.stk.dropLast)

/-- `at(i)`: the value at bottom-relative index `i`; fails with `Stack.IndexError` when `i ≥ SP` (10_state.md R19). -/
def stackAt (i : Nat) (s : State) : Except StorageError Word :=
  match s.stk[i]? with
  | none => .error .indexError
  | some v => .ok v

/-- `dump()`: the live Words from bottom to top (10_state.md R21). -/
def dumpWords (s : State) : List Word := s.stk

/-- How a handler ends: success, or `raise E` in the state it has reached (00_scope.md R7, 40_engine_loop.md R67). -/
inductive HandlerResult where
  | success (s : State)
  | raise (e : ErrorKind) (s : State)
  deriving DecidableEq, Repr

/-- `push(v)` as the last act of a handler: success, or the re-tagged error (60_exceptions.md R90). -/
def pushAndSucceed (v : Word) (s : State) : HandlerResult :=
  match push v s with
  | .error e => .raise (retag e) s
  | .ok t => .success t

/-- The operands of a binary operator: the count check, then `a` (popped first, the top) and `b` (popped second), and the
state after both pops (42_arithmetic.md R76, R77). The check leaves the stack untouched. -/
def popOperands (s : State) : Except ErrorKind (Int × Int × State) :=
  if s.sp < 2 then .error .notEnoughOperands
  else
    match pop s with
    | .error e => .error (retag e)
    | .ok (a, s1) =>
      match pop s1 with
      | .error e => .error (retag e)
      | .ok (b, s2) => .ok (s64 a, s64 b, s2)

/-- The restore contract of an arithmetic `Overflow`: `push(bits64(b)) ; push(bits64(a)) ; raise Overflow`
(42_arithmetic.md R77). -/
def restoreAndOverflow (a b : Int) (s : State) : HandlerResult :=
  match push (bits64 b) s with
  | .error e => .raise (retag e) s
  | .ok s1 =>
    match push (bits64 a) s1 with
    | .error e => .raise (retag e) s1
    | .ok s2 => .raise .overflow s2

/-- A checked result: pushed when representable, else `Overflow` with the operands restored (42_arithmetic.md R78). -/
def pushChecked (a b r : Int) (s : State) : HandlerResult :=
  if inRange r then pushAndSucceed (bits64 r) s else restoreAndOverflow a b s

/-- `IP <- IP + 1` (40_engine_loop.md R68). -/
def advance (s : State) : State := s.setIp (s.ip + 1)

/-- The halt transition `halt(E)` (60_exceptions.md R93), for the offending instruction `i`, which is `PROG[IP]` (R94;
log 24): `HALTED <- 1 ; CAUSE <- E ; emit Diag(E, dump(), IP, opcode, operand) ; LEN <- 0`. `IP` and the stack are kept. -/
def halt (e : ErrorKind) (i : Instr) (s : State) : State :=
  let s1 : State := { s with halted := true, cause := some e }
  let s2 := s1.emit (.diag e (dumpWords s1) s1.ip (opcodeOf i) i.operand)
  { s2 with len := 0 }

/-- The end of an Exec step for every opcode but JUMP (40_engine_loop.md R68, R69): advance on success, halt on an error. -/
def complete (i : Instr) : HandlerResult → Host.Outcome State Fault Refusal
  | .success s => .next (advance s)
  | .raise e s => .next (halt e i s)

/-- The end of an Exec step for JUMP, whose handler has set `IP` itself: nothing is added (R68, 70_reset_and_hazards.md
R111). -/
def completeJump (i : Instr) : HandlerResult → Host.Outcome State Fault Refusal
  | .success s => .next s
  | .raise e s => .next (halt e i s)

/-- `reset` asserted, from any state whatever, with the same program (70_reset_and_hazards.md R105, R106; 60_exceptions.md
R98). A move of the environment, not of `step` (log 14). -/
def State.applyReset (s : State) : State := State.fresh s.cap s.prog

/-- *running*: `HALTED = 0 and IP < LEN` (40_engine_loop.md R65). -/
def running (s : State) : Bool := !s.halted && decide (s.ip.toNat < s.len.toNat)

/-- *finished*: `HALTED = 0 and IP ≥ LEN` (R65). -/
def finished (s : State) : Bool := !s.halted && decide (s.len.toNat ≤ s.ip.toNat)

/-- *terminated*: halted or finished (R65). -/
def terminated (s : State) : Bool := s.halted || finished s

/-- *retired*: `LEN = 0` (R65). -/
def retired (s : State) : Bool := decide (s.len = 0)

/-- Finish is enabled: `HALTED = 0 and IP = LEN and LEN ≠ 0` (40_engine_loop.md R64, R70). -/
def finishEnabled (s : State) : Bool := !s.halted && (decide (s.ip = s.len) && decide (s.len ≠ 0))

/-- The transition Finish: `LEN <- 0`, nothing else (R70). -/
def finish (s : State) : State := { s with len := 0 }

/-- The fetch: `PROG[IP]` (40_engine_loop.md R66). It changes no state. -/
def fetch (s : State) : Option Instr := s.prog[s.ip.toNat]?

/-- Why a state with no step has none (R71). -/
def noStep (s : State) : Fault := if s.halted then .haltedCore else .finishedCore

/-- The state in which the next step fetches `i`: `i` put at `PROG[IP]` where the program has that index, else a program
of `i` alone with `IP = 0`; in both cases `LEN = N` and the core running. It stands for a load from outside (log 7). -/
def placeInstr (i : Instr) (s : State) : State :=
  if s.ip.toNat < s.prog.length then
    { s with prog := s.prog.set s.ip.toNat i, len := BitVec.ofNat 64 s.prog.length, halted := false, cause := none }
  else { s with prog := [i], ip := 0, len := 1, halted := false, cause := none }

end Sys2Proof.Machine
end

