-- ==== Sys2Proof/Machine/Arithmetic.lean ====
section
/-! DEFINITION. PLUS, MINUS, MULTIPLY and DIVIDE (42_arithmetic.md). The operand field is ignored but for the diagnostic
(30_encoding.md R51). -/

namespace Sys2Proof.Machine

/-- The handler of `PLUS` (R79): checked addition. -/
def handlePlus (s : State) : HandlerResult :=
  match popOperands s with
  | .error e => .raise e s
  | .ok (a, b, t) => pushChecked a b (a + b) t

/-- The handler of `MINUS` (R80): top minus second, wrapping modulo 2^64 (decision D7, log 10). -/
def handleMinus (s : State) : HandlerResult :=
  match popOperands s with
  | .error e => .raise e s
  | .ok (a, b, t) => pushAndSucceed (bits64 (a - b)) t

/-- The handler of `MULTIPLY` (R81): checked multiplication, the test on the full product. -/
def handleMultiply (s : State) : HandlerResult :=
  match popOperands s with
  | .error e => .raise e s
  | .ok (a, b, t) => pushChecked a b (a * b) t

/-- The handler of `DIVIDE` (R82): top divided by second, rounding toward zero (log 12). A zero divisor leaves both
operands popped (decision D10, log 13); `MIN64 / -1` is `Overflow` with the operands restored (decision D8, log 11). -/
def handleDivide (s : State) : HandlerResult :=
  match popOperands s with
  | .error e => .raise e s
  | .ok (a, b, t) =>
    if b = 0 then .raise .divisionByZero t
    else if a = min64 ∧ b = -1 then restoreAndOverflow a b t
    else pushAndSucceed (bits64 (truncDiv a b)) t

/-- `PLUS` (R79). -/
def execPlus (op : Word) (s : State) : Host.Outcome State Fault Refusal := complete (.plus op) (handlePlus s)

/-- `MINUS` (R80). -/
def execMinus (op : Word) (s : State) : Host.Outcome State Fault Refusal := complete (.minus op) (handleMinus s)

/-- `MULTIPLY` (R81). -/
def execMultiply (op : Word) (s : State) : Host.Outcome State Fault Refusal :=
  complete (.multiply op) (handleMultiply s)

/-- `DIVIDE` (R82). -/
def execDivide (op : Word) (s : State) : Host.Outcome State Fault Refusal := complete (.divide op) (handleDivide s)

end Sys2Proof.Machine
end

