-- ==== Sys2Proof/Machine/Control.lean ====
section
/-! DEFINITION. JUMP (44_control.md). -/

namespace Sys2Proof.Machine

/-- The handler of `JUMP(op)` (R84): an absolute target, `LEN` itself included; the stack is neither read nor written. -/
def handleJump (op : Word) (s : State) : HandlerResult :=
  if s.len.toNat < jumpTarget op then .raise .illegalPointer s
  else .success (s.setIp (BitVec.ofNat 64 (jumpTarget op)))

/-- `JUMP(op)` (R84); the engine does not add 1 (40_engine_loop.md R68). -/
def execJump (op : Word) (s : State) : Host.Outcome State Fault Refusal := completeJump (.jump op) (handleJump op s)

end Sys2Proof.Machine
end

