-- ==== Sys2Proof/Machine/Diagnostic.lean ====
section
/-! DEFINITION. DUMP (43_diagnostic.md). -/

namespace Sys2Proof.Machine

/-- The handler of `DUMP` (R83): emit the live stack, bottom first; no error in any state. -/
def handleDump (s : State) : HandlerResult := .success (s.emit (.dump (dumpWords s)))

/-- `DUMP` (R83). -/
def execDump (op : Word) (s : State) : Host.Outcome State Fault Refusal := complete (.dump op) (handleDump s)

end Sys2Proof.Machine
end

