-- ==== Sys2Proof/Machine/StackData.lean ====
section
/-! DEFINITION. PUSH and DUPLICATE (41_stack_data.md). -/

namespace Sys2Proof.Machine

/-- The handler of `PUSH(op)` (R73). -/
def handlePush (op : Word) (s : State) : HandlerResult := pushAndSucceed (pushOperand op) s

/-- The handler of `DUPLICATE(op)` (R74): the index first (decision D11, log 15), then the room. -/
def handleDuplicate (op : Word) (s : State) : HandlerResult :=
  if s.sp ≤ duplicateIndex op then .raise .indexOutOfRange s
  else
    match stackAt (s.sp - 1 - duplicateIndex op) s with
    | .error e => .raise (retag e) s
    | .ok v => pushAndSucceed v s

/-- `PUSH(op)` (R73). -/
def execPush (op : Word) (s : State) : Host.Outcome State Fault Refusal := complete (.push op) (handlePush op s)

/-- `DUPLICATE(op)` (R74). -/
def execDuplicate (op : Word) (s : State) : Host.Outcome State Fault Refusal :=
  complete (.duplicate op) (handleDuplicate op s)

end Sys2Proof.Machine
end

