-- ==== Sys2Proof/Machine/Dispatch.lean ====
section
/-! DEFINITION. Dispatch (40_engine_loop.md R67): one arm per constructor, no default arm. -/

namespace Sys2Proof.Machine

def exec (i : Instr) (s : State) : Host.Outcome State Fault Refusal :=
  match i with
  | .push op => Sys2Proof.Machine.execPush op s
  | .plus op => Sys2Proof.Machine.execPlus op s
  | .minus op => Sys2Proof.Machine.execMinus op s
  | .multiply op => Sys2Proof.Machine.execMultiply op s
  | .divide op => Sys2Proof.Machine.execDivide op s
  | .dump op => Sys2Proof.Machine.execDump op s
  | .jump op => Sys2Proof.Machine.execJump op s
  | .duplicate op => Sys2Proof.Machine.execDuplicate op s

end Sys2Proof.Machine
end

