-- ==== Sys2Proof/Machine/Step.lean ====
section
/-! DEFINITION. The step relation (40_engine_loop.md R64): Exec, Finish, or no step. -/

namespace Sys2Proof.Machine

/-- One step (R64). In a terminated state nothing is enabled (R71): the step stops with a fault that says which end it is. -/
def step (s : State) : Host.Outcome State Fault Refusal :=
  if running s then
    match fetch s with
    | some i => exec i s
    | none => .fault .fetchOutsideProgram
  else if finishEnabled s then .next (finish s)
  else .fault (noStep s)

/-- `s` with the instruction of the table word `w` placed where the next step fetches; `s` itself where the decoder
refuses the word, since no `PROG` ever holds one (30_encoding.md R55; log 7). -/
def State.withFetchWord (s : State) (nbits w : Nat) : State :=
  match decodeTableWord nbits w with
  | some i => placeInstr i s
  | none => s

end Sys2Proof.Machine
end

