-- ==== Sys2Proof/Machine/Boot.lean ====
section
/-! DEFINITION. The interface of the block beside the step: the load port and the order of boot (10_state.md R29,
70_reset_and_hazards.md R108), and the status outputs (10_state.md R31). Log 7, 14. -/

namespace Sys2Proof.Machine

/-- How boot ends (70_reset_and_hazards.md R108). -/
inductive BootResult where
  /-- `PROG` and `N` are fixed, the core is in the reset state with `LEN = N`, and `reset` is released. -/
  | released (s : State)
  /-- The image does not decode: the core is never released from reset (60_exceptions.md R103). -/
  | heldInReset (e : DecodeError)
  deriving DecidableEq, Repr

/-- Boot a core of capacity `cap` from a program image (R108, steps 2 to 6). -/
def bootWith (cap : Nat) (img : List Byte) : BootResult :=
  match decode img with
  | .program p => .released (State.fresh cap p)
  | .error e => .heldInReset e

/-- Boot a core of the reference capacity (R108; 00_scope.md R5). -/
def boot (img : List Byte) : BootResult := bootWith Config.stackCapacity img

/-- What the environment reads of a terminated core (10_state.md R31); `CAUSE` as its code (R25). -/
structure Status where
  ip : Word
  len : Word
  halted : Bool
  causeBits : BitVec 3
  sp : Nat
  stk : List Word
  deriving DecidableEq, Repr

/-- The status port: "reading the state of a core that is still running is not provided for" (R31). -/
def status (s : State) : Option Status :=
  if terminated s then
    some { ip := s.ip, len := s.len, halted := s.halted, causeBits := causeCode s.cause, sp := s.sp, stk := s.stk }
  else none

end Sys2Proof.Machine
end

