-- ==== Sys2Proof/Safety.lean ====
section
/-! DEFINITION. What claims are stated with: the invariants of every reachable state (10_state.md R33), the table of which
instruction raises which error and when (60_exceptions.md R89), the order of boot and runs. -/

namespace Sys2Proof.Machine

/-- `STK[SP-1]`, the top Word of a non-empty stack. -/
def topWord (s : State) : Word := s.stk.getD (s.sp - 1) 0

/-- `STK[SP-2]`, the Word under the top of a stack of two or more. -/
def secondWord (s : State) : Word := s.stk.getD (s.sp - 2) 0

/-- The table of 60_exceptions.md R89, row by row and independently of the handlers: the error an instruction raises, by
conditions on the state before it, with `a = s64(STK[SP-1])` and `b = s64(STK[SP-2])`; `none` where it succeeds. -/
def raises (i : Instr) (s : State) : Option ErrorKind :=
  match i with
  | .push _ => if s.sp = s.cap then some .stackOverflow else none
  | .plus _ =>
    if s.sp < 2 then some .notEnoughOperands
    else if inRange (s64 (topWord s) + s64 (secondWord s)) then none else some .overflow
  | .minus _ => if s.sp < 2 then some .notEnoughOperands else none
  | .multiply _ =>
    if s.sp < 2 then some .notEnoughOperands
    else if inRange (s64 (topWord s) * s64 (secondWord s)) then none else some .overflow
  | .divide _ =>
    if s.sp < 2 then some .notEnoughOperands
    else if s64 (secondWord s) = 0 then some .divisionByZero
    else if s64 (topWord s) = min64 ∧ s64 (secondWord s) = -1 then some .overflow
    else none
  | .dump _ => none
  | .jump op => if s.len.toNat < op.toNat then some .illegalPointer else none
  | .duplicate op =>
    if s.sp ≤ op.toNat then some .indexOutOfRange
    else if s.sp = s.cap then some .stackOverflow
    else none

/-- Whether an event is a diagnostic. -/
def Event.isDiag : Event → Bool
  | .dump _ => false
  | .diag _ _ _ _ _ => true

/-- The events of a list hold no diagnostic. -/
def noDiag (es : List Event) : Prop := ∀ e ∈ es, e.isDiag = false

/-- The invariants of every reachable state (10_state.md R33), with what R70, R93 and R94 say of the two ends. -/
structure Inv (s : State) : Prop where
  /-- `N ≤ NMAX` (00_scope.md R5). -/
  programFits : s.prog.length ≤ Config.nmax
  /-- R33.1: `SP ≤ C`. -/
  stackBounded : s.sp ≤ s.cap
  /-- R33.2: `IP ≤ N`. -/
  pointerInProgram : s.ip.toNat ≤ s.prog.length
  /-- R33.3: `LEN` is `N` or 0. -/
  lenIsProgramOrZero : s.len.toNat = s.prog.length ∨ s.len = 0
  /-- R70: a core retired without an error stands at `IP = N`. -/
  retiredAtEnd : s.halted = false → s.len = 0 → s.ip.toNat = s.prog.length
  /-- R33.4: a halted core has `LEN = 0`. -/
  haltedRetired : s.halted = true → s.len = 0
  /-- R33.4: no cause without a halt. -/
  causeOnlyWhenHalted : s.halted = false → s.cause = none
  /-- R33.6: no diagnostic before the halt. -/
  noDiagBeforeHalt : s.halted = false → noDiag s.out
  /-- R33.4, R33.6, R94: a halted core has a cause, and its last event is the one diagnostic, of that cause, the stack, the
  index and the instruction at it. -/
  haltedDiagnostic : s.halted = true → ∃ kind i earlier, s.cause = some kind ∧ fetch s = some i ∧ noDiag earlier ∧
    s.out = earlier ++ [.diag kind s.stk s.ip (opcodeOf i) i.operand]

/-- The states a run from `s` goes through (40_engine_loop.md R72). -/
inductive Reaches (s : State) : State → Prop where
  | here : Reaches s s
  | next {t u : State} : Reaches s t → step t = .next u → Reaches s u

/-- The two states of a core differ at most in stack, capacity and output: they agree on all that R72 says the flow of
control depends on. -/
def SameControl (s t : State) : Prop :=
  s.prog = t.prog ∧ s.ip = t.ip ∧ s.len = t.len ∧ s.halted = t.halted

end Sys2Proof.Machine
end

