-- ==== Sys2Proof/Certificates/Slice0/Obligations.lean ====
section
/-! DEFINITION. The statements for the provers. Each docstring names the rule or the section of spec/ it formalises, and the
decision of 92_eei_decisions.md or the log entry it rests on where it rests on one. -/

open Sys2Proof Sys2Proof.Machine

/-! ### The codec (30_encoding.md) -/

/-- 30_encoding.md section 4, laws (1) and (4) of R57: a program of at most `NMAX` instructions, encoded and decoded, is
the program; its image has nine bytes an instruction. The record form rests on decisions D3 and D4 (log 8). -/
def Obligations.DecodeOfEncodeIsTheProgram : Prop :=
  ∀ p : List Instr, Program.wf p = true → decode (encode p) = .program p ∧ (encode p).length = 9 * p.length

/-- 30_encoding.md section 4, laws (2) and (3) of R57 (derived by the spec): an image that decodes is the encoding of what it
decodes to, so no two images decode to one program (log 8). -/
def Obligations.EncodeOfDecodeIsTheImage : Prop :=
  (∀ img p, decode img = .program p → encode p = img) ∧
    (∀ img img' p, decode img = .program p → decode img' = .program p → img = img')

/-- 30_encoding.md R54 and R55: the decoder accepts exactly the images without residue, within `NMAX`, with tags 0 to 7
(log 8, 16). -/
def Obligations.DecodeAcceptsExactlyWellFormedImages : Prop :=
  ∀ img : List Byte, (∃ p, decode img = .program p) ↔ Image.wf img = true

/-- 30_encoding.md R54, the kinds and the order of the decode errors (decision D6, log 9): residue first, then `NMAX`, then
the first unrecognised tag, with its record number. -/
def Obligations.DecodeReportsTheFirstDefect : Prop :=
  (∀ img : List Byte, img.length % 9 ≠ 0 → decode img = .error (.residualBytes (img.length % 9))) ∧
  (∀ img : List Byte, img.length % 9 = 0 → Config.nmax < img.length / 9 → decode img = .error .tooLong) ∧
  (∀ (p : List Instr) (t b0 b1 b2 b3 b4 b5 b6 b7 : Byte) (rest : List Byte), 7 < t.toNat → rest.length % 9 = 0 →
    p.length + 1 + rest.length / 9 ≤ Config.nmax →
    decode (encode p ++ t :: b0 :: b1 :: b2 :: b3 :: b4 :: b5 :: b6 :: b7 :: rest) = .error (.unknownOpcode p.length t))

/-- 95_test_vectors.md V-CD2 to V-CD5, V-CD8 to V-CD13, V-DC2, V-DC3: one or more words of each opcode, written out from R47 and
R49, decode to the instruction they stand for; a tag of 8 to none (log 8). -/
def Obligations.TableWordsDecode : Prop :=
  decodeTableWord 72 0xFFFFFFFFFFFFFFF900 = some (.push 0xFFFFFFFFFFFFFFF9) ∧
  decodeTableWord 72 0x0123456789ABCDEF00 = some (.push 0x0123456789ABCDEF) ∧
  decodeTableWord 72 0x7FFFFFFFFFFFFFFF00 = some (.push 0x7FFFFFFFFFFFFFFF) ∧
  decodeTableWord 72 0x000000000000000001 = some (.plus 0) ∧
  decodeTableWord 72 0x00000000DEADBEEF01 = some (.plus 0xDEADBEEF) ∧
  decodeTableWord 72 0x000000000000000002 = some (.minus 0) ∧
  decodeTableWord 72 0x000000000000000003 = some (.multiply 0) ∧
  decodeTableWord 72 0x000000000000000004 = some (.divide 0) ∧
  decodeTableWord 72 0x000000000000000005 = some (.dump 0) ∧
  decodeTableWord 72 0x000000000000000206 = some (.jump 2) ∧
  decodeTableWord 72 0x000000000000000107 = some (.duplicate 1) ∧
  decodeTableWord 72 0x000000000000000008 = none

/-- 30_encoding.md R52, 20_memory.md R37: instruction `k` of a decoded program is the record at byte offset `9k` of its
image, and the image has no other bytes (log 8). -/
def Obligations.InstructionIsItsRecord : Prop :=
  ∀ (img : List Byte) (p : List Instr), decode img = .program p →
    img.length = 9 * p.length ∧ ∀ k i, p[k]? = some i → (img.drop (9 * k)).take 9 = encodeInstr i

/-! ### The Word (10_state.md section 1) -/

/-- 10_state.md R11 to R15: each pair of constructor and reader is inverse on its range, and the float pair is the
identity on bit patterns (NaNs included); the zero Word is zero under all three (log 21). -/
def Obligations.RepackingLosesNoBit : Prop :=
  (∀ z : Int, min64 ≤ z → z ≤ max64 → asSigned (fromSigned z) = z) ∧
  (∀ n : Nat, n < 2 ^ 64 → asUnsigned (fromUnsigned n) = n) ∧
  (∀ w : Word, fromSigned (asSigned w) = w ∧ fromUnsigned (asUnsigned w) = w ∧ fromFloat (asFloat w) = w) ∧
  (∀ f : Binary64, asFloat (fromFloat f) = f) ∧
  (asSigned 0 = 0 ∧ asUnsigned 0 = 0 ∧ floatValue (asFloat 0) = some (0, -1074) ∧ (asFloat 0).sign = false)

/-- 00_scope.md R6: `bits64(z)` is the Word with `u64(w) = z mod 2^64`, and `s64(w)` is `u64(w)`, less `2^64` when bit 63
is set (two's complement is the spec's general knowledge G3, log 21). -/
def Obligations.WordNotation : Prop :=
  (∀ z : Int, (u64 (bits64 z) : Int) = z % (2 ^ 64 : Int)) ∧
  (∀ w : Word, s64 w = if w.msb then (u64 w : Int) - 2 ^ 64 else (u64 w : Int))

/-! ### The stack primitives (10_state.md section 2) -/

/-- 10_state.md R17: `push` appends at the top; it fails with `Stack.Overflow`, and gives no state, when the length is
the capacity. -/
def Obligations.PushPrimitive : Prop :=
  ∀ (v : Word) (s : State),
    (s.sp = s.cap → push v s = .error .overflow) ∧
    (s.sp ≠ s.cap → push v s = .ok { s with stk := s.stk ++ [v] })

/-- 10_state.md R18: `pop` removes and returns the top; it fails with `Stack.Underflow` when empty; push then pop returns
the value pushed and the state before. -/
def Obligations.PopPrimitive : Prop :=
  (∀ s : State, s.sp = 0 → pop s = .error .underflow) ∧
  (∀ (s : State) (rest : List Word) (v : Word), s.stk = rest ++ [v] → pop s = .ok (v, { s with stk := rest })) ∧
  (∀ (v : Word) (s t : State), push v s = .ok t → pop t = .ok (v, s))

/-- 10_state.md R19 and R20: `at(i)` is the Word at bottom-relative index `i` below the length, `Stack.IndexError` from
the length on; `length()` counts the live cells. -/
def Obligations.AtAndLengthPrimitives : Prop :=
  ∀ (i : Nat) (s : State),
    (s.sp ≤ i → stackAt i s = .error .indexError) ∧
    (∀ v, s.stk[i]? = some v → stackAt i s = .ok v) ∧
    (i < s.sp → ∃ v, s.stk[i]? = some v ∧ stackAt i s = .ok v) ∧
    s.sp = s.stk.length

/-! ### What each instruction does where it succeeds -/

/-- 41_stack_data.md PUSH (R73): with room, the operand is pushed bit for bit and `IP` advances; nothing else changes. -/
def Obligations.PushCompletes : Prop :=
  ∀ (op : Word) (s : State), s.sp ≠ s.cap →
    exec (.push op) s = .next { s with stk := s.stk ++ [op], ip := s.ip + 1 }

/-- 41_stack_data.md DUPLICATE (R74): with the index below the length and room, a copy of the element `u64(op)` places below
the top is pushed and `IP` advances; nothing else changes. -/
def Obligations.DuplicateCompletes : Prop :=
  ∀ (op : Word) (s : State), op.toNat < s.sp → s.sp ≠ s.cap →
    ∃ v, s.stk[s.sp - 1 - op.toNat]? = some v ∧
      exec (.duplicate op) s = .next { s with stk := s.stk ++ [v], ip := s.ip + 1 }

/-- 42_arithmetic.md PLUS (R79): with two operands and a sum in `MIN64 .. MAX64`, the Word that reads as the sum takes their
place and `IP` advances; nothing else changes. -/
def Obligations.PlusCompletes : Prop :=
  ∀ (op : Word) (s : State) (rest : List Word) (b a : Word), s.stk = rest ++ [b, a] → s.sp ≤ s.cap →
    min64 ≤ s64 a + s64 b → s64 a + s64 b ≤ max64 →
    ∃ r, s64 r = s64 a + s64 b ∧ exec (.plus op) s = .next { s with stk := rest ++ [r], ip := s.ip + 1 }

/-- 42_arithmetic.md MINUS (R80): with two operands, top minus second, as the wrapping difference of the Words, takes their
place and `IP` advances; where the difference of the signed values is representable, it is that. The wrap is the spec's
decision D7 (log 10). -/
def Obligations.MinusCompletes : Prop :=
  ∀ (op : Word) (s : State) (rest : List Word) (b a : Word), s.stk = rest ++ [b, a] → s.sp ≤ s.cap →
    exec (.minus op) s = .next { s with stk := rest ++ [a - b], ip := s.ip + 1 } ∧
    (min64 ≤ s64 a - s64 b → s64 a - s64 b ≤ max64 → s64 (a - b) = s64 a - s64 b)

/-- 42_arithmetic.md MULTIPLY (R81): with two operands and a full product in `MIN64 .. MAX64`, the Word that reads as the
product takes their place and `IP` advances; nothing else changes. -/
def Obligations.MultiplyCompletes : Prop :=
  ∀ (op : Word) (s : State) (rest : List Word) (b a : Word), s.stk = rest ++ [b, a] → s.sp ≤ s.cap →
    min64 ≤ s64 a * s64 b → s64 a * s64 b ≤ max64 →
    ∃ r, s64 r = s64 a * s64 b ∧ exec (.multiply op) s = .next { s with stk := rest ++ [r], ip := s.ip + 1 }

/-- 42_arithmetic.md DIVIDE (R82): with two operands, a divisor that is not the zero Word, and not `MIN64 / -1`, the Word
that reads as top divided by second, rounded toward zero, takes their place and `IP` advances (decisions D8, D9; log 11,
12). -/
def Obligations.DivideCompletes : Prop :=
  ∀ (op : Word) (s : State) (rest : List Word) (b a : Word), s.stk = rest ++ [b, a] → s.sp ≤ s.cap →
    b ≠ 0 → ¬ (s64 a = min64 ∧ s64 b = -1) →
    ∃ q, s64 q = (s64 a).tdiv (s64 b) ∧ exec (.divide op) s = .next { s with stk := rest ++ [q], ip := s.ip + 1 }

/-- 43_diagnostic.md DUMP (R83): in every state one `Dump` event of the live Words, bottom first, is appended to `OUT` and
`IP` advances; nothing else changes (event form: decision D16, log 19). -/
def Obligations.DumpCompletes : Prop :=
  ∀ (op : Word) (s : State), exec (.dump op) s = .next { s with out := s.out ++ [.dump s.stk], ip := s.ip + 1 }

/-- 44_control.md JUMP (R84), 70_reset_and_hazards.md R111: with `u64(op) ≤ LEN`, `IP` is the operand itself, nothing is
added to it, and nothing else changes (unsigned reading: decision D12). -/
def Obligations.JumpCompletes : Prop :=
  ∀ (op : Word) (s : State), op.toNat ≤ s.len.toNat → exec (.jump op) s = .next { s with ip := op }

/-- 42_arithmetic.md R76: "`MINUS` gives *top minus second* and `DIVIDE` gives *top divided by second*": with `y` on top of
`x`, a representable difference `y - x`, and an exact representable quotient `y / x`, take the place of the two. (No
wrap and no rounding is in question here.) -/
def Obligations.OperandOrderIsTopFirst : Prop :=
  ∀ (op : Word) (s : State) (rest : List Word) (x y : Word), s.stk = rest ++ [x, y] → s.sp ≤ s.cap →
    (min64 ≤ s64 y - s64 x → s64 y - s64 x ≤ max64 →
      ∃ r, s64 r = s64 y - s64 x ∧ exec (.minus op) s = .next { s with stk := rest ++ [r], ip := s.ip + 1 }) ∧
    (∀ q : Int, s64 x ≠ 0 → s64 y = q * s64 x → min64 ≤ q → q ≤ max64 →
      ∃ r, s64 r = q ∧ exec (.divide op) s = .next { s with stk := rest ++ [r], ip := s.ip + 1 })

/-- 40_engine_loop.md R68: after a successful instruction `IP` is the operand for `JUMP` and `IP + 1` for the other seven, which
from a running state neither wraps nor exceeds `LEN`; after an error `IP` is not advanced. Which instruction succeeds and
which errs is the table of 60_exceptions.md R89 (`raises`), so that an out-of-range `MINUS` advances (decision D7, log 10),
`MIN64 / -1` does not (decision D8, log 11), and a jump target is read unsigned (decision D12). -/
def Obligations.PointerAdvancesExceptForJump : Prop :=
  ∀ (i : Instr) (s t : State), s.sp ≤ s.cap → exec i s = .next t →
    (raises i s ≠ none → t.ip = s.ip) ∧
    (raises i s = none →
      (∀ op, i = .jump op → t.ip = op) ∧
      ((∀ op, i ≠ .jump op) → t.ip = s.ip + 1 ∧
        (s.ip.toNat < s.len.toNat → t.ip.toNat = s.ip.toNat + 1 ∧ t.ip.toNat ≤ t.len.toNat)))

/-! ### Errors and the halt (60_exceptions.md) -/

/-- 60_exceptions.md R93 and R94: the halt transition sets `HALTED`, records `CAUSE`, emits one `Diag` of the kind, the stack,
the index and the instruction's opcode and operand, and zeroes `LEN`; `IP`, the stack, the program and the capacity are
kept (`CAUSE` and the event form: decisions D14, D16, D23; log 19). -/
def Obligations.HaltTransition : Prop :=
  ∀ (e : ErrorKind) (i : Instr) (s : State),
    halt e i s = { s with halted := true, cause := some e, len := 0,
                          out := s.out ++ [.diag e s.stk s.ip (opcodeOf i) i.operand] }

/-- 41_stack_data.md R73 and R74, the errors: `PUSH` on a full stack halts with `StackOverflow`; `DUPLICATE` halts with
`IndexOutOfRange` when `u64(op) ≥ SP`, full stack or not (decision D11, log 15), and else with `StackOverflow` on a full
stack. The state halted is the one before the instruction. -/
def Obligations.StackInstructionsHalt : Prop :=
  ∀ (op : Word) (s : State),
    (s.sp = s.cap → exec (.push op) s = .next (halt .stackOverflow (.push op) s)) ∧
    (s.sp ≤ op.toNat → exec (.duplicate op) s = .next (halt .indexOutOfRange (.duplicate op) s)) ∧
    (op.toNat < s.sp → s.sp = s.cap → exec (.duplicate op) s = .next (halt .stackOverflow (.duplicate op) s))

/-- 42_arithmetic.md R77: "Any of PLUS/MINUS/MULTIPLY/DIVIDE invoked with fewer than 2 elements always yields
`NotEnoughOperands` and leaves the stack unchanged". -/
def Obligations.TooFewOperandsHalt : Prop :=
  ∀ (i : Instr) (s : State), (∃ op, i = .plus op ∨ i = .minus op ∨ i = .multiply op ∨ i = .divide op) → s.sp < 2 →
    exec i s = .next (halt .notEnoughOperands i s)

/-- 42_arithmetic.md R77, R78, R79, R81, R82: a sum or product outside `MIN64 .. MAX64`, and `MIN64 / -1`, halt with
`Overflow` in the state before the instruction: both operands are back in their order (`MIN64 / -1`: decision D8, log 11). -/
def Obligations.OverflowRestoresOperands : Prop :=
  ∀ (op : Word) (s : State) (rest : List Word) (b a : Word), s.stk = rest ++ [b, a] → s.sp ≤ s.cap →
    ((s64 a + s64 b < min64 ∨ max64 < s64 a + s64 b) → exec (.plus op) s = .next (halt .overflow (.plus op) s)) ∧
    ((s64 a * s64 b < min64 ∨ max64 < s64 a * s64 b) → exec (.multiply op) s = .next (halt .overflow (.multiply op) s)) ∧
    (s64 a = min64 → s64 b = -1 → exec (.divide op) s = .next (halt .overflow (.divide op) s))

/-- 42_arithmetic.md R82: a zero Word under the top halts `DIVIDE` with `DivisionByZero`, whatever the dividend, and both
operands are gone (decision D10, log 13). -/
def Obligations.DivisionByZeroDropsOperands : Prop :=
  ∀ (op : Word) (s : State) (rest : List Word) (a : Word), s.stk = rest ++ [0, a] →
    exec (.divide op) s = .next (halt .divisionByZero (.divide op) { s with stk := rest })

/-- 44_control.md R84: a target above `LEN` halts `JUMP` with `IllegalPointer`, the state otherwise as before. -/
def Obligations.JumpBeyondLengthHalts : Prop :=
  ∀ (op : Word) (s : State), s.len.toNat < op.toNat → exec (.jump op) s = .next (halt .illegalPointer (.jump op) s)

/-- 60_exceptions.md R89 and R95 over all eight instructions: in every state within capacity, an instruction halts exactly
with the error the table of R89 gives, in the stack R95 gives (unchanged but for `DivisionByZero`), and succeeds, control
state but `IP` untouched, where the table gives none (decisions D8, D10, D11; log 11, 13, 15). -/
def Obligations.ErrorTableDecidesOutcome : Prop :=
  ∀ (i : Instr) (s : State), s.sp ≤ s.cap →
    (raises i s = none → ∃ t, exec i s = .next t ∧ t.halted = s.halted ∧ t.cause = s.cause ∧ t.len = s.len) ∧
    (∀ e, raises i s = some e →
      exec i s = .next (halt e i (if e = .divisionByZero then { s with stk := s.stk.take (s.sp - 2) } else s)))

/-- 60_exceptions.md R88: the codes of `CAUSE` are 0 to 6, distinct, read back by `causeOfCode`; 7 is never written
(decision D14, log 19). -/
def Obligations.CauseCodesAreDistinct : Prop :=
  (∀ c, causeOfCode (causeCode c) = some c ∧ causeCode c ≠ 7) ∧ causeOfCode 7 = none ∧
    causeCode none = 0 ∧ causeCode (some .notEnoughOperands) = 1 ∧ causeCode (some .divisionByZero) = 2 ∧
    causeCode (some .stackOverflow) = 3 ∧ causeCode (some .illegalPointer) = 4 ∧
    causeCode (some .indexOutOfRange) = 5 ∧ causeCode (some .overflow) = 6

/-! ### Frames -/

/-- The frame of the instructions that write the stack, where they succeed (41_stack_data.md, 42_arithmetic.md,
40_engine_loop.md R68): `IP` advances by one; `LEN`, `HALTED`, `CAUSE`, `OUT`, the program and the capacity are unchanged;
`PUSH` and `DUPLICATE` add one cell over an unchanged stack, the four operators put one cell in the place of the top two,
every cell below unchanged. -/
def Obligations.FrameOfStackInstructions : Prop :=
  ∀ (i : Instr) (s t : State), s.sp ≤ s.cap → raises i s = none → exec i s = .next t →
    (∀ op, i ≠ .dump op ∧ i ≠ .jump op) →
    t.ip = s.ip + 1 ∧ t.len = s.len ∧ t.halted = s.halted ∧ t.cause = s.cause ∧ t.out = s.out ∧
    t.prog = s.prog ∧ t.cap = s.cap ∧
    (((∃ op, i = .push op ∨ i = .duplicate op) → t.sp = s.sp + 1 ∧ ∀ k, k < s.sp → t.stk[k]? = s.stk[k]?) ∧
     ((∀ op, i ≠ .push op ∧ i ≠ .duplicate op) → t.sp + 1 = s.sp ∧ ∀ k, k + 2 < s.sp → t.stk[k]? = s.stk[k]?))

/-- The frame of `DUMP` and `JUMP`, in every state, halting or not (43_diagnostic.md R83, 44_control.md R84): the stack, the
program and the capacity are unchanged; where `JUMP` succeeds `LEN`, `HALTED`, `CAUSE` and `OUT` are too; `DUMP` leaves
`LEN`, `HALTED` and `CAUSE`, and appends one event. -/
def Obligations.FrameOfDumpAndJump : Prop :=
  ∀ (op : Word) (s t : State),
    (exec (.dump op) s = .next t → t.stk = s.stk ∧ t.prog = s.prog ∧ t.cap = s.cap ∧ t.len = s.len ∧
      t.halted = s.halted ∧ t.cause = s.cause ∧ t.out = s.out ++ [.dump s.stk]) ∧
    (exec (.jump op) s = .next t → t.stk = s.stk ∧ t.prog = s.prog ∧ t.cap = s.cap ∧
      (op.toNat ≤ s.len.toNat → t.len = s.len ∧ t.halted = s.halted ∧ t.cause = s.cause ∧ t.out = s.out))

/-- The frame of an error, over all eight instructions (60_exceptions.md R93 to R95, 40_engine_loop.md R68): an instruction
that halts a core leaves `IP`, the program and the capacity, every cell below the top two, sets the error state, and emits
exactly the diagnostic of the stack it leaves. -/
def Obligations.FrameOfErrors : Prop :=
  ∀ (i : Instr) (s t : State), s.halted = false → exec i s = .next t → t.halted = true →
    t.ip = s.ip ∧ t.prog = s.prog ∧ t.cap = s.cap ∧ t.len = 0 ∧ (∀ k, k + 2 < s.sp → t.stk[k]? = s.stk[k]?) ∧
    ∃ e, t.cause = some e ∧ t.out = s.out ++ [.diag e t.stk s.ip (opcodeOf i) i.operand]

/-- 30_encoding.md R51 (decision D21): the operand field of `PLUS`, `MINUS`, `MULTIPLY`, `DIVIDE` and `DUMP` shows in one place
only, the `operand` of a `Diag` event: with another operand the outcome is the same state but for that. -/
def Obligations.UnusedOperandIsIgnored : Prop :=
  ∀ (i : Instr) (op : Word) (s t : State), operandUsed (opcodeOf i) = false → exec i s = .next t →
    ∃ t', exec (instrOf (opcodeOf i) op) s = .next t' ∧ t' = { t with out := t'.out } ∧
      (t'.out = t.out ∨ ∃ e words index, t.out = s.out ++ [.diag e words index (opcodeOf i) i.operand] ∧
        t'.out = s.out ++ [.diag e words index (opcodeOf i) op])

/-- 40_engine_loop.md R67: a handler other than `JUMP`'s neither reads nor writes `IP`, `LEN`, `HALTED` or `CAUSE`: with other
values in them it ends in the same way, in the same state but for those values. -/
def Obligations.HandlersIgnoreControlState : Prop :=
  ∀ (h : State → HandlerResult), (h = handlePlus ∨ h = handleMinus ∨ h = handleMultiply ∨ h = handleDivide ∨
      h = handleDump ∨ ∃ op, h = handlePush op ∨ h = handleDuplicate op) →
    ∀ (s : State) (ip len : Word) (halted : Bool) (cause : Option ErrorKind),
      let change (t : State) : State := { t with ip := ip, len := len, halted := halted, cause := cause }
      (∀ t, h s = .success t → h (change s) = .success (change t) ∧
        t.ip = s.ip ∧ t.len = s.len ∧ t.halted = s.halted ∧ t.cause = s.cause) ∧
      (∀ e t, h s = .raise e t → h (change s) = .raise e (change t) ∧
        t.ip = s.ip ∧ t.len = s.len ∧ t.halted = s.halted ∧ t.cause = s.cause)

/-! ### Arithmetic laws (42_arithmetic.md section 1) -/

/-- 42_arithmetic.md R79, corner cases: a signed sum is out of range "exactly when `a` and `b` have the same sign and
`bits64(a+b)` has the other sign". -/
def Obligations.PlusOverflowsBySigns : Prop :=
  ∀ a b : Word, inRange (s64 a + s64 b) = false ↔ a.msb = b.msb ∧ (bits64 (s64 a + s64 b)).msb ≠ a.msb

/-- 42_arithmetic.md R78: the quotient of `trunc_div` leaves a remainder smaller than the divisor and of the dividend's
sign (rounding toward zero, decision D9, log 12); on signed 64-bit operands it leaves the range only at `MIN64 / -1`. -/
def Obligations.DivisionRoundsTowardZero : Prop :=
  (∀ a b : Int, b ≠ 0 →
    (a - b * truncDiv a b).natAbs < b.natAbs ∧ (a - b * truncDiv a b = 0 ∨ (a - b * truncDiv a b).sign = a.sign)) ∧
  (∀ a b : Word, s64 b ≠ 0 → (inRange (truncDiv (s64 a) (s64 b)) = false ↔ s64 a = min64 ∧ s64 b = -1))

/-! ### The engine loop (40_engine_loop.md) -/

/-- 40_engine_loop.md R64, R66: in a running state the step is `exec` of the instruction `PROG` holds at `IP`, at that very
state; nothing is added around it. -/
def Obligations.StepRunsTheFetchedInstruction : Prop :=
  ∀ (s : State) (i : Instr), s.halted = false → s.ip.toNat < s.len.toNat → s.prog[s.ip.toNat]? = some i →
    step s = exec i s

/-- 40_engine_loop.md R66 with 30_encoding.md R52, R54: where the program was decoded from an image, the step runs the
instruction that the nine bytes at byte offset `9·IP` of the image decode to (log 8). -/
def Obligations.StepRunsTheDecodedRecord : Prop :=
  ∀ (img : List Byte) (s : State) (i : Instr), decode img = .program s.prog → s.halted = false →
    s.ip.toNat < s.len.toNat → decode ((img.drop (9 * s.ip.toNat)).take 9) = .program [i] → step s = exec i s

/-- 40_engine_loop.md R66: in a running state that keeps the invariants of 10_state.md R33 "The fetch cannot fail": there is an
instruction at `IP`, and the step is that instruction's, made on the state unchanged by the fetch. -/
def Obligations.FetchNeverFails : Prop :=
  ∀ s : State, Inv s → running s = true → ∃ i, fetch s = some i ∧ s.prog[s.ip.toNat]? = some i ∧ step s = exec i s

/-- 40_engine_loop.md R70: with `HALTED = 0` and `IP = LEN ≠ 0` the step is Finish: `LEN <- 0`, nothing else, nothing emitted;
and after it no step is enabled (Finish as a step of its own: decision D15, log 20). -/
def Obligations.FinishRetiresTheCore : Prop :=
  ∀ s : State, s.halted = false → s.ip = s.len → s.len ≠ 0 →
    step s = .next { s with len := 0 } ∧ ∀ t, step { s with len := 0 } ≠ .next t

/-- 40_engine_loop.md R71: "In a halted state, and in a finished state with `LEN = 0`, nothing is enabled": the step has no
next state. -/
def Obligations.TerminatedStatesHaveNoStep : Prop :=
  ∀ s : State, (s.halted = true → ∀ t, step s ≠ .next t) ∧ (s.halted = false → s.len = 0 → ∀ t, step s ≠ .next t)

/-- 60_exceptions.md R96: "There is no return from a halt and no instruction for it": the only state a halted core comes to by
steps is itself, so `CAUSE` keeps the one value written; reset alone gives a core that is not halted. -/
def Obligations.HaltedCoreStaysHalted : Prop :=
  ∀ s : State, s.halted = true → (∀ t, Reaches s t → t = s) ∧ s.applyReset.halted = false

/-- 40_engine_loop.md R65: every state is exactly one of running, halted and finished; terminated is halted or finished;
a retired state is terminated. -/
def Obligations.ExactlyOneOfRunningHaltedFinished : Prop :=
  ∀ s : State,
    (running s = true ↔ s.halted = false ∧ finished s = false) ∧
    (finished s = true ↔ s.halted = false ∧ running s = false) ∧
    (terminated s = true ↔ s.halted = true ∨ finished s = true) ∧
    (retired s = true → terminated s = true)

/-- 10_state.md R33.3, R33.5, R33.6, 60_exceptions.md R96: only a core that is not halted steps; a step keeps `LEN` or zeroes it;
it appends at most one event to `OUT`, after those there; and `CAUSE` changes only in a step that halts. -/
def Obligations.StepsOnlyMoveForward : Prop :=
  ∀ s t : State, step s = .next t →
    s.halted = false ∧ (t.len = s.len ∨ t.len = 0) ∧ (t.out = s.out ∨ ∃ e, t.out = s.out ++ [e]) ∧
    (t.halted = false → t.cause = s.cause)

/-- 20_memory.md R44: no step writes `PROG`, so every fetch of an index in one run returns the same instruction; the capacity,
a parameter fixed at construction (00_scope.md R5, 10_state.md R16), stays too. That State holds `PROG` and `C` is the model's
choice (log 1, 2). -/
def Obligations.ProgramIsImmutable : Prop :=
  ∀ s t : State, Reaches s t → (∀ i : Nat, t.prog[i]? = s.prog[i]?) ∧ t.prog = s.prog ∧ t.cap = s.cap

/-- 70_reset_and_hazards.md R113 (2): `SP` falls by at most one in a step that does not halt, and by two only where the core
halts with `DivisionByZero`; within capacity it stays within. -/
def Obligations.StackFallsByAtMostOne : Prop :=
  ∀ s t : State, step s = .next t →
    (t.halted = false → s.sp ≤ t.sp + 1) ∧ s.sp ≤ t.sp + 2 ∧
    (s.sp ≤ s.cap → t.sp ≤ s.cap ∧ (s.sp = t.sp + 2 → t.halted = true ∧ t.cause = some .divisionByZero))

/-- 40_engine_loop.md R72, 44_control.md R85 (derived by the spec): the sequence of `IP` values does not depend on any stack
value: two cores that agree on program, `IP`, `LEN` and `HALTED`, whatever their stacks, capacities and outputs, agree on
them again after any number of steps that halt neither. -/
def Obligations.ControlFlowIgnoresTheStack : Prop :=
  ∀ (n : Nat) (s t s' t' : State), SameControl s t → Sys2Proof.core.run n s = .next s' →
    Sys2Proof.core.run n t = .next t' → s'.halted = false → t'.halted = false → SameControl s' t'

/-! ### Reset, boot and the invariants -/

/-- 10_state.md R32, 70_reset_and_hazards.md R105: asserted in any state, reset gives `IP = 0`, `LEN = N`, `HALTED = 0`,
`CAUSE = None`, `SP = 0`, `OUT` empty, the program and the capacity kept (decisions D14, D16, D17, D19; log 14). `State.reset` is
that of the empty program and capacity 90 (log 2, 7). -/
def Obligations.ResetState : Prop :=
  (∀ s : State, s.applyReset = { stk := [], ip := 0, len := BitVec.ofNat 64 s.prog.length, halted := false, cause := none,
                                 out := [], prog := s.prog, cap := s.cap }) ∧
  State.reset = { stk := [], ip := 0, len := 0, halted := false, cause := none, out := [], prog := [], cap := 90 }

/-- 70_reset_and_hazards.md R108, 60_exceptions.md R103: an image that decodes boots to the reset state of its program; one that
does not leaves the core in reset with the error; and the image of any program of at most `NMAX` instructions boots
to that program (log 7, 8). -/
def Obligations.BootLoadsTheImage : Prop :=
  ∀ cap : Nat,
    (∀ img p, decode img = .program p → bootWith cap img = .released (State.fresh cap p)) ∧
    (∀ img e, decode img = .error e → bootWith cap img = .heldInReset e) ∧
    (∀ p : List Instr, Program.wf p = true → bootWith cap (encode p) = .released (State.fresh cap p))

/-- 10_state.md R31: the status outputs show `IP`, `LEN`, `HALTED`, `CAUSE`, `SP` and the live cells of a terminated core, and
nothing of a running one (decision D19, log 14). -/
def Obligations.StatusShowsTerminatedCores : Prop :=
  ∀ s : State,
    (running s = true → status s = none) ∧
    (running s = false → status s = some (
      { ip := s.ip, len := s.len, halted := s.halted, causeBits := causeCode s.cause, sp := s.stk.length, stk := s.stk }))

/-- A model rule, not the spec's (log 7): an instruction placed by `withFetchWord`'s `placeInstr` is the one the next step
runs. -/
def Obligations.PlacedInstructionRuns : Prop :=
  ∀ (i : Instr) (s : State), s.prog.length ≤ Config.nmax → step (placeInstr i s) = exec i (placeInstr i s)

/-- 10_state.md R33: the invariants hold in the reset state of every program of at most `NMAX` instructions, at any capacity,
and so at `State.reset`. -/
def Obligations.InvariantHoldsAtReset : Prop :=
  (∀ (cap : Nat) (p : List Instr), Program.wf p = true → Inv (State.fresh cap p)) ∧ Inv State.reset

/-- 10_state.md R33: every step, from every state, keeps the invariants: the bounded stack, the pointer within the program,
`LEN` one of `N` and 0, cause exactly when halted, one diagnostic at most, the last event and true to the halted
state. -/
def Obligations.StepKeepsTheInvariant : Prop :=
  ∀ s t : State, Inv s → step s = .next t → Inv t

/-- 10_state.md R33, 40_engine_loop.md R71 and R72: along every run of every booted program the invariants hold, and each state
of the run either has a next state or is terminated: no run is stopped by anything but its end. -/
def Obligations.RunsAreSafe : Prop :=
  ∀ (cap : Nat) (p : List Instr) (s : State), Program.wf p = true → Reaches (State.fresh cap p) s →
    Inv s ∧ ((∃ t, step s = .next t) ∨ (s.len = 0 ∧ ∀ t, step s ≠ .next t))

/-- 40_engine_loop.md R64, R70, R71, with the invariants of 10_state.md R33 as premise: every state that keeps them either has
a next state or has `LEN = 0` and none: nothing but its end stops a core. -/
def Obligations.InvariantGivesProgress : Prop :=
  ∀ s : State, Inv s → (∃ t, step s = .next t) ∨ (s.len = 0 ∧ ∀ t, step s ≠ .next t)
end

