-- ==== Sys2Proof/Laws/Codec.lean ====
section
/-! SUPPORT. Small lemmas of the codec: the operand bytes in both directions, one record in front of the decoder, the
encoder's pieces. -/

namespace Sys2Proof

/-- Two adjacent fields of a Word, put together, are the field over both. -/
theorem extract_append (op : Word) (a b m n : Nat) (h : a = b + n) :
    op.extractLsb' a m ++ op.extractLsb' b n = op.extractLsb' b (m + n) := by
  rw [BitVec.extractLsb'_append_extractLsb'_eq_extractLsb' (h := h)]

/-- The eight operand bytes, put together again, are the operand (30_encoding.md R50). -/
@[simp] theorem le64_operandByte (op : Word) :
    le64 (operandByte op 0) (operandByte op 1) (operandByte op 2) (operandByte op 3)
      (operandByte op 4) (operandByte op 5) (operandByte op 6) (operandByte op 7) = op := by
  simp only [le64, operandByte]
  rw [extract_append _ _ _ _ _ (by rfl), extract_append _ _ _ _ _ (by rfl), extract_append _ _ _ _ _ (by rfl),
    extract_append _ _ _ _ _ (by rfl), extract_append _ _ _ _ _ (by rfl), extract_append _ _ _ _ _ (by rfl),
    extract_append _ _ _ _ _ (by rfl)]
  exact BitVec.extractLsb'_eq_self

/-- Byte 0 of a Word made from eight bytes. -/
@[simp] theorem operandByte_le64_0 (b0 b1 b2 b3 b4 b5 b6 b7 : Byte) :
    operandByte (le64 b0 b1 b2 b3 b4 b5 b6 b7) 0 = b0 := by
  simp only [le64, operandByte]
  rw [BitVec.extractLsb'_append_eq_of_add_le (by decide)]
  exact BitVec.extractLsb'_eq_self

/-- A byte above the lowest of a Word made from an upper part and a lowest byte. -/
theorem extract_above {m : Nat} (x : BitVec m) (b : Byte) (k : Nat) :
    (x ++ b).extractLsb' (8 * (k + 1)) 8 = x.extractLsb' (8 * k) 8 := by
  rw [BitVec.extractLsb'_append_eq_of_le (by omega)]
  congr 1

/-- The lowest byte of a vector with that lowest byte. -/
theorem extract_lowest {m : Nat} (x : BitVec m) (b : Byte) : (x ++ b).extractLsb' (8 * 0) 8 = b := by
  rw [BitVec.extractLsb'_append_eq_of_add_le (by decide)]
  exact BitVec.extractLsb'_eq_self

@[simp] theorem operandByte_le64_1 (b0 b1 b2 b3 b4 b5 b6 b7 : Byte) :
    operandByte (le64 b0 b1 b2 b3 b4 b5 b6 b7) 1 = b1 := by
  simp only [le64, operandByte, extract_above, extract_lowest]

@[simp] theorem operandByte_le64_2 (b0 b1 b2 b3 b4 b5 b6 b7 : Byte) :
    operandByte (le64 b0 b1 b2 b3 b4 b5 b6 b7) 2 = b2 := by
  simp only [le64, operandByte, extract_above, extract_lowest]

@[simp] theorem operandByte_le64_3 (b0 b1 b2 b3 b4 b5 b6 b7 : Byte) :
    operandByte (le64 b0 b1 b2 b3 b4 b5 b6 b7) 3 = b3 := by
  simp only [le64, operandByte, extract_above, extract_lowest]

@[simp] theorem operandByte_le64_4 (b0 b1 b2 b3 b4 b5 b6 b7 : Byte) :
    operandByte (le64 b0 b1 b2 b3 b4 b5 b6 b7) 4 = b4 := by
  simp only [le64, operandByte, extract_above, extract_lowest]

@[simp] theorem operandByte_le64_5 (b0 b1 b2 b3 b4 b5 b6 b7 : Byte) :
    operandByte (le64 b0 b1 b2 b3 b4 b5 b6 b7) 5 = b5 := by
  simp only [le64, operandByte, extract_above, extract_lowest]

@[simp] theorem operandByte_le64_6 (b0 b1 b2 b3 b4 b5 b6 b7 : Byte) :
    operandByte (le64 b0 b1 b2 b3 b4 b5 b6 b7) 6 = b6 := by
  simp only [le64, operandByte, extract_above, extract_lowest]

@[simp] theorem operandByte_le64_7 (b0 b1 b2 b3 b4 b5 b6 b7 : Byte) :
    operandByte (le64 b0 b1 b2 b3 b4 b5 b6 b7) 7 = b7 := by
  simp only [le64, operandByte, extract_above]
  exact BitVec.extractLsb'_eq_self

/-- Reading an instruction's own tag and operand gives the instruction (30_encoding.md R49). -/
@[simp] theorem instrOfTag_tag (i : Instr) : instrOfTag i.tag i.operand = some i := by
  cases i <;> rfl

/-- A tag that selects an instruction is that instruction's tag, and the operand is kept (R49, R51). -/
theorem instrOfTag_some {t : Byte} {op : Word} {i : Instr} (h : instrOfTag t op = some i) :
    i.tag = t ∧ i.operand = op := by
  have ht : ∀ n : Nat, n < 256 → t.toNat = n → t = BitVec.ofNat 8 n := fun n hn e => by
    apply BitVec.eq_of_toNat_eq
    simp [e, Nat.mod_eq_of_lt hn]
  unfold instrOfTag at h
  split at h <;> first | (cases h; done) | (rename_i hn; injection h with h; subst h; exact ⟨(ht _ (by decide) hn).symm, rfl⟩)

/-- A tag selects an instruction exactly when it is at most 7 (R54, R55). -/
theorem instrOfTag_isSome (t : Byte) (op : Word) : (instrOfTag t op).isSome = decide (t.toNat ≤ 7) := by
  unfold instrOfTag
  split <;> simp_all
  omega

/-- `RECORD_BYTES` is 9 (00_scope.md R5). -/
@[simp] theorem recordBytes_eq : Config.recordBytes = 9 := rfl

/-- The decoder with its number of bytes a record written out (30_encoding.md R54). -/
theorem decode_eq (img : List Byte) : decode img =
    if img.length % 9 ≠ 0 then .error (.residualBytes (img.length % 9))
    else if 9223372036854775807 < img.length / 9 then .error .tooLong
    else decodeFrom 0 img := rfl

/-- A program is well formed exactly when it has at most `NMAX` instructions (00_scope.md R5). -/
theorem programWf_iff (p : List Instr) : Program.wf p = true ↔ p.length ≤ 9223372036854775807 := by
  have h : p.all Instr.wf = true := by
    rw [List.all_eq_true]
    intro i _
    cases i <;> rfl
  rw [Program.wf, h, Bool.and_true]
  exact decide_eq_true_iff

/-- A record is nine bytes (30_encoding.md R46). -/
@[simp] theorem length_encodeInstr (i : Instr) : (encodeInstr i).length = 9 := rfl

@[simp] theorem encode_nil : encode [] = [] := rfl
@[simp] theorem encode_cons (i : Instr) (p : List Instr) : encode (i :: p) = encodeInstr i ++ encode p := rfl

/-- The decoding loop reads an encoded record back and goes on with the rest (R50, R53, R54). -/
theorem decodeFrom_encodeInstr (n : Nat) (i : Instr) (rest : List Byte) :
    decodeFrom n (encodeInstr i ++ rest) =
      match decodeFrom (n + 1) rest with
      | .program p => .program (i :: p)
      | .error e => .error e := by
  simp only [encodeInstr, List.cons_append, List.nil_append]
  cases h : decodeFrom (n + 1) rest <;> simp only [decodeFrom, le64_operandByte, instrOfTag_tag, h]

/-- A record with an unrecognised tag ends the loop with its number and tag (R54, R55). -/
theorem decodeFrom_unknown (n : Nat) {t : Byte} (ht : 7 < t.toNat) (b0 b1 b2 b3 b4 b5 b6 b7 : Byte)
    (rest : List Byte) :
    decodeFrom n (t :: b0 :: b1 :: b2 :: b3 :: b4 :: b5 :: b6 :: b7 :: rest) = .error (.unknownOpcode n t) := by
  have h : instrOfTag t (le64 b0 b1 b2 b3 b4 b5 b6 b7) = none := by
    rw [← Option.not_isSome_iff_eq_none, instrOfTag_isSome]
    simpa using ht
  rw [decodeFrom, h]

end Sys2Proof
end

