-- ==== Sys2Proof/Laws/Repack.lean ====
section
/-! SUPPORT. The repacking functions in the library's terms, and their round trips on the ranges of 10_state.md R11. -/

namespace Sys2Proof.Machine

/-- The spec's `s64` is the two's-complement reading of the library. -/
theorem s64_eq_toInt (w : Word) : s64 w = w.toInt := by
  have hlt := w.isLt
  have hmsb : w.getLsbD 63 = w.msb := by simp [BitVec.msb_eq_getLsbD_last]
  unfold s64
  rw [BitVec.toInt_eq_msb_cond, hmsb]
  rfl

/-- The spec's `bits64` is the library's narrowing of an integer. -/
theorem bits64_eq_ofInt (z : Int) : bits64 z = BitVec.ofInt 64 z := by
  apply BitVec.eq_of_toNat_eq
  simp only [bits64, BitVec.toNat_ofNat, BitVec.toNat_ofInt]
  omega

/-- Reading a Word as signed and writing it back gives the Word. -/
@[simp] theorem bits64_s64 (w : Word) : bits64 (s64 w) = w := by
  rw [bits64_eq_ofInt, s64_eq_toInt, BitVec.ofInt_toInt]

/-- The signed reading lies in `MIN64 .. MAX64`. -/
theorem inRange_s64 (w : Word) : inRange (s64 w) = true := by
  have h1 := BitVec.le_toInt w
  have h2 := BitVec.toInt_lt (x := w)
  simp only [inRange, s64_eq_toInt, min64, max64, Bool.and_eq_true, decide_eq_true_eq]
  omega

/-- `inRange` as two inequalities. -/
theorem inRange_iff (r : Int) : inRange r = true ↔ min64 ≤ r ∧ r ≤ max64 := by
  simp [inRange]

/-- On the signed range `s64` undoes `bits64`. -/
theorem s64_bits64 {r : Int} (h : inRange r = true) : s64 (bits64 r) = r := by
  rw [inRange_iff] at h
  simp only [min64, max64] at h
  rw [bits64_eq_ofInt, s64_eq_toInt, BitVec.toInt_ofInt]
  rw [Int.bmod_eq_of_le] <;> omega

/-- Narrowing a difference of signed readings is the wrapping difference of the Words. -/
theorem bits64_sub (a b : Word) : bits64 (s64 a - s64 b) = a - b := by
  apply BitVec.eq_of_toInt_eq
  rw [bits64_eq_ofInt, s64_eq_toInt, s64_eq_toInt, BitVec.toInt_ofInt, BitVec.toInt_sub]

/-- The zero test of a signed reading is on all 64 bits (42_arithmetic.md R82). -/
theorem s64_eq_zero (b : Word) : s64 b = 0 ↔ b = 0 := by
  rw [s64_eq_toInt]
  constructor
  · intro h
    apply BitVec.eq_of_toInt_eq
    simpa using h
  · rintro rfl
    rfl

/-- The spec's `trunc_div` is the library's division rounding toward zero. -/
theorem truncDiv_eq_tdiv (a b : Int) : truncDiv a b = a.tdiv b := by
  unfold truncDiv
  match a, b with
  | .ofNat 0, .ofNat _ => simp
  | .ofNat 0, .negSucc _ => simp
  | .ofNat (_ + 1), .ofNat 0 => simp
  | .negSucc _, .ofNat 0 => simp
  | .ofNat (m + 1), .ofNat (n + 1) =>
    show (1 : Int) * 1 * ((((m + 1) / (n + 1) : Nat)) : Int) = (((m + 1) / (n + 1) : Nat) : Int)
    omega
  | .ofNat (m + 1), .negSucc n =>
    show (1 : Int) * -1 * (((m + 1) / (n + 1) : Nat) : Int) = -(((m + 1) / (n + 1) : Nat) : Int)
    omega
  | .negSucc m, .ofNat (n + 1) =>
    show (-1 : Int) * 1 * (((m + 1) / (n + 1) : Nat) : Int) = -(((m + 1) / (n + 1) : Nat) : Int)
    omega
  | .negSucc m, .negSucc n =>
    show (-1 : Int) * -1 * (((m + 1) / (n + 1) : Nat) : Int) = (((m + 1) / (n + 1) : Nat) : Int)
    omega

end Sys2Proof.Machine
end

