-- ==== Sys2Proof/Laws/State.lean ====
section
/-! SUPPORT. One lemma per field per update of the state, all true by rfl: what each named operation of
`Sys2Proof/Machine/Ops.lean` writes and what it leaves. -/

namespace Sys2Proof.Machine

@[simp] theorem State.setStk_stk (s : State) (l : List Word) : (s.setStk l).stk = l := rfl
@[simp] theorem State.setStk_ip (s : State) (l : List Word) : (s.setStk l).ip = s.ip := rfl
@[simp] theorem State.setStk_len (s : State) (l : List Word) : (s.setStk l).len = s.len := rfl
@[simp] theorem State.setStk_halted (s : State) (l : List Word) : (s.setStk l).halted = s.halted := rfl
@[simp] theorem State.setStk_cause (s : State) (l : List Word) : (s.setStk l).cause = s.cause := rfl
@[simp] theorem State.setStk_out (s : State) (l : List Word) : (s.setStk l).out = s.out := rfl
@[simp] theorem State.setStk_prog (s : State) (l : List Word) : (s.setStk l).prog = s.prog := rfl
@[simp] theorem State.setStk_cap (s : State) (l : List Word) : (s.setStk l).cap = s.cap := rfl

@[simp] theorem State.setIp_stk (s : State) (v : Word) : (s.setIp v).stk = s.stk := rfl
@[simp] theorem State.setIp_ip (s : State) (v : Word) : (s.setIp v).ip = v := rfl
@[simp] theorem State.setIp_len (s : State) (v : Word) : (s.setIp v).len = s.len := rfl
@[simp] theorem State.setIp_halted (s : State) (v : Word) : (s.setIp v).halted = s.halted := rfl
@[simp] theorem State.setIp_cause (s : State) (v : Word) : (s.setIp v).cause = s.cause := rfl
@[simp] theorem State.setIp_out (s : State) (v : Word) : (s.setIp v).out = s.out := rfl
@[simp] theorem State.setIp_prog (s : State) (v : Word) : (s.setIp v).prog = s.prog := rfl
@[simp] theorem State.setIp_cap (s : State) (v : Word) : (s.setIp v).cap = s.cap := rfl

@[simp] theorem State.emit_stk (s : State) (e : Event) : (s.emit e).stk = s.stk := rfl
@[simp] theorem State.emit_ip (s : State) (e : Event) : (s.emit e).ip = s.ip := rfl
@[simp] theorem State.emit_len (s : State) (e : Event) : (s.emit e).len = s.len := rfl
@[simp] theorem State.emit_halted (s : State) (e : Event) : (s.emit e).halted = s.halted := rfl
@[simp] theorem State.emit_cause (s : State) (e : Event) : (s.emit e).cause = s.cause := rfl
@[simp] theorem State.emit_out (s : State) (e : Event) : (s.emit e).out = s.out ++ [e] := rfl
@[simp] theorem State.emit_prog (s : State) (e : Event) : (s.emit e).prog = s.prog := rfl
@[simp] theorem State.emit_cap (s : State) (e : Event) : (s.emit e).cap = s.cap := rfl

@[simp] theorem advance_stk (s : State) : (advance s).stk = s.stk := rfl
@[simp] theorem advance_ip (s : State) : (advance s).ip = s.ip + 1 := rfl
@[simp] theorem advance_len (s : State) : (advance s).len = s.len := rfl
@[simp] theorem advance_halted (s : State) : (advance s).halted = s.halted := rfl
@[simp] theorem advance_cause (s : State) : (advance s).cause = s.cause := rfl
@[simp] theorem advance_out (s : State) : (advance s).out = s.out := rfl
@[simp] theorem advance_prog (s : State) : (advance s).prog = s.prog := rfl
@[simp] theorem advance_cap (s : State) : (advance s).cap = s.cap := rfl

@[simp] theorem finish_stk (s : State) : (finish s).stk = s.stk := rfl
@[simp] theorem finish_ip (s : State) : (finish s).ip = s.ip := rfl
@[simp] theorem finish_len (s : State) : (finish s).len = 0 := rfl
@[simp] theorem finish_halted (s : State) : (finish s).halted = s.halted := rfl
@[simp] theorem finish_cause (s : State) : (finish s).cause = s.cause := rfl
@[simp] theorem finish_out (s : State) : (finish s).out = s.out := rfl
@[simp] theorem finish_prog (s : State) : (finish s).prog = s.prog := rfl
@[simp] theorem finish_cap (s : State) : (finish s).cap = s.cap := rfl

@[simp] theorem halt_stk (e : ErrorKind) (i : Instr) (s : State) : (halt e i s).stk = s.stk := rfl
@[simp] theorem halt_ip (e : ErrorKind) (i : Instr) (s : State) : (halt e i s).ip = s.ip := rfl
@[simp] theorem halt_len (e : ErrorKind) (i : Instr) (s : State) : (halt e i s).len = 0 := rfl
@[simp] theorem halt_halted (e : ErrorKind) (i : Instr) (s : State) : (halt e i s).halted = true := rfl
@[simp] theorem halt_cause (e : ErrorKind) (i : Instr) (s : State) : (halt e i s).cause = some e := rfl
@[simp] theorem halt_out (e : ErrorKind) (i : Instr) (s : State) : (halt e i s).out = s.out ++ [.diag e s.stk s.ip (opcodeOf i) i.operand] := rfl
@[simp] theorem halt_prog (e : ErrorKind) (i : Instr) (s : State) : (halt e i s).prog = s.prog := rfl
@[simp] theorem halt_cap (e : ErrorKind) (i : Instr) (s : State) : (halt e i s).cap = s.cap := rfl

@[simp] theorem State.fresh_stk (c : Nat) (p : List Instr) : (State.fresh c p).stk = [] := rfl
@[simp] theorem State.fresh_ip (c : Nat) (p : List Instr) : (State.fresh c p).ip = 0 := rfl
@[simp] theorem State.fresh_len (c : Nat) (p : List Instr) : (State.fresh c p).len = BitVec.ofNat 64 p.length := rfl
@[simp] theorem State.fresh_halted (c : Nat) (p : List Instr) : (State.fresh c p).halted = false := rfl
@[simp] theorem State.fresh_cause (c : Nat) (p : List Instr) : (State.fresh c p).cause = none := rfl
@[simp] theorem State.fresh_out (c : Nat) (p : List Instr) : (State.fresh c p).out = [] := rfl
@[simp] theorem State.fresh_prog (c : Nat) (p : List Instr) : (State.fresh c p).prog = p := rfl
@[simp] theorem State.fresh_cap (c : Nat) (p : List Instr) : (State.fresh c p).cap = c := rfl

@[simp] theorem State.sp_setStk (s : State) (l : List Word) : (s.setStk l).sp = l.length := rfl
@[simp] theorem State.sp_setIp (s : State) (v : Word) : (s.setIp v).sp = s.sp := rfl
@[simp] theorem State.sp_emit (s : State) (e : Event) : (s.emit e).sp = s.sp := rfl
@[simp] theorem sp_advance (s : State) : (advance s).sp = s.sp := rfl
@[simp] theorem sp_finish (s : State) : (finish s).sp = s.sp := rfl
@[simp] theorem sp_halt (e : ErrorKind) (i : Instr) (s : State) : (halt e i s).sp = s.sp := rfl
@[simp] theorem sp_fresh (c : Nat) (p : List Instr) : (State.fresh c p).sp = 0 := rfl

/-- Replacing the stack twice keeps the second. -/
@[simp] theorem State.setStk_setStk (s : State) (l m : List Word) : (s.setStk l).setStk m = s.setStk m := rfl

/-- Writing back the stack changes nothing. -/
@[simp] theorem State.setStk_self (s : State) : s.setStk s.stk = s := rfl

/-- `State.reset` is the reset state of the empty program. -/
theorem State.reset_eq : State.reset = State.fresh 90 [] := rfl

/-- `applyReset` gives the fresh state of the same program and capacity. -/
@[simp] theorem State.applyReset_eq (s : State) : s.applyReset = State.fresh s.cap s.prog := rfl

end Sys2Proof.Machine
end

