-- ==== Sys2Proof/Laws/Ops.lean ====
section
/-! SUPPORT. What each shared operation can do, said once: the stack primitives, the operands of a binary operator, the
ends of an Exec step, and the inversion lemmas of `exec` and `step`. -/

namespace Sys2Proof.Machine

/-! ### The stack primitives -/

/-- `push` below capacity appends. -/
theorem push_ok {v : Word} {s : State} (h : s.sp ≠ s.cap) : push v s = .ok (s.setStk (s.stk ++ [v])) := by
  simp [push, h]

/-- `push` at capacity fails. -/
theorem push_full {v : Word} {s : State} (h : s.sp = s.cap) : push v s = .error .overflow := by
  simp [push, h]

/-- `pop` of a stack with top `v` gives `v` and the rest. -/
theorem pop_concat {s : State} {l : List Word} {v : Word} (h : s.stk = l ++ [v]) : pop s = .ok (v, s.setStk l) := by
  simp [pop, h]

/-- `pop` of the empty stack fails. -/
theorem pop_empty {s : State} (h : s.stk = []) : pop s = .error .underflow := by
  simp [pop, h]

/-- `at(i)` below the length reads cell `i`. -/
theorem stackAt_lt {s : State} {i : Nat} (h : i < s.sp) : stackAt i s = .ok (s.stk.getD i 0) := by
  have h' : i < s.stk.length := h
  simp [stackAt, h']

/-- `at(i)` from the length on fails. -/
theorem stackAt_ge {s : State} {i : Nat} (h : s.sp ≤ i) : stackAt i s = .error .indexError := by
  have h' : s.stk.length ≤ i := h
  simp [stackAt, List.getElem?_eq_none h']

/-- A stack of two or more has a top and a Word under it. -/
theorem exists_two {s : State} (h : ¬ s.sp < 2) : ∃ rest b a, s.stk = rest ++ [b, a] := by
  have hlen : 2 ≤ s.stk.length := Nat.le_of_not_lt h
  rcases List.eq_nil_or_concat s.stk with h0 | ⟨l, a, hl⟩
  · simp [h0] at hlen
  rcases List.eq_nil_or_concat l with h1 | ⟨rest, b, hr⟩
  · simp [hl, h1] at hlen
  · exact ⟨rest, b, a, by simp [hl, hr]⟩

/-- The top of a stack given by its last two Words. -/
theorem topWord_concat {s : State} {rest : List Word} {b a : Word} (h : s.stk = rest ++ [b, a]) : topWord s = a := by
  simp [topWord, State.sp, h]

/-- The Word under the top of a stack given by its last two Words. -/
theorem secondWord_concat {s : State} {rest : List Word} {b a : Word} (h : s.stk = rest ++ [b, a]) :
    secondWord s = b := by
  simp [secondWord, State.sp, h]

/-- The last push of a handler succeeds below capacity and re-tags the full stack. -/
theorem pushAndSucceed_cases (v : Word) (s : State) :
    (s.sp ≠ s.cap ∧ pushAndSucceed v s = .success (s.setStk (s.stk ++ [v]))) ∨
      (s.sp = s.cap ∧ pushAndSucceed v s = .raise .stackOverflow s) := by
  by_cases h : s.sp = s.cap
  · exact .inr ⟨h, by simp [pushAndSucceed, push_full h, retag]⟩
  · exact .inl ⟨h, by simp [pushAndSucceed, push_ok h]⟩

/-! ### The operands of a binary operator -/

/-- Fewer than two elements: `NotEnoughOperands`. -/
theorem popOperands_short {s : State} (h : s.sp < 2) : popOperands s = .error .notEnoughOperands := by
  simp [popOperands, h]

/-- Two or more: the top is `a`, the Word under it `b`, both popped. -/
theorem popOperands_concat {s : State} {rest : List Word} {b a : Word} (h : s.stk = rest ++ [b, a]) :
    popOperands s = .ok (s64 a, s64 b, s.setStk rest) := by
  have hsp : ¬ s.sp < 2 := by simp [State.sp, h]
  have h1 : pop s = .ok (a, s.setStk (rest ++ [b])) := pop_concat (by simp [h])
  have h2 : pop (s.setStk (rest ++ [b])) = .ok (b, s.setStk rest) := pop_concat rfl
  simp [popOperands, hsp, h1, h2]

/-- The push of a result after the two pops succeeds, two cells having been freed (42_arithmetic.md R79). -/
theorem pushAndSucceed_popped {s : State} {rest : List Word} {b a v : Word} (h : s.stk = rest ++ [b, a])
    (hc : s.sp ≤ s.cap) : pushAndSucceed v (s.setStk rest) = .success (s.setStk (rest ++ [v])) := by
  have hne : (s.setStk rest).sp ≠ (s.setStk rest).cap := by
    simp only [State.sp, h, List.length_append, List.length_cons, List.length_nil] at hc
    simp
    omega
  simp [pushAndSucceed, push_ok hne]

/-- The restore contract: the stack is exactly as before the instruction (42_arithmetic.md R77). -/
theorem restoreAndOverflow_popped {s : State} {rest : List Word} {b a : Word} (h : s.stk = rest ++ [b, a])
    (hc : s.sp ≤ s.cap) : restoreAndOverflow (s64 a) (s64 b) (s.setStk rest) = .raise .overflow s := by
  simp only [State.sp, h, List.length_append, List.length_cons, List.length_nil] at hc
  have h1 : (s.setStk rest).sp ≠ (s.setStk rest).cap := by simp; omega
  have h2 : (s.setStk (rest ++ [b])).sp ≠ (s.setStk (rest ++ [b])).cap := by simp; omega
  have e1 : push b (s.setStk rest) = .ok (s.setStk (rest ++ [b])) := push_ok h1
  have e2 : push a (s.setStk (rest ++ [b])) = .ok s := by
    rw [push_ok h2]
    simp [← h]
  simp [restoreAndOverflow, e1, e2]

/-- A checked result, in range or not. -/
theorem pushChecked_popped {s : State} {rest : List Word} {b a : Word} (r : Int) (h : s.stk = rest ++ [b, a])
    (hc : s.sp ≤ s.cap) : pushChecked (s64 a) (s64 b) r (s.setStk rest) =
      if inRange r then .success (s.setStk (rest ++ [bits64 r])) else .raise .overflow s := by
  by_cases hr : inRange r = true
  · simp [pushChecked, hr, pushAndSucceed_popped h hc]
  · simp [pushChecked, hr, restoreAndOverflow_popped h hc]

/-! ### What a handler can leave, in every state -/

/-- A stack that an instruction may leave over `s`: within capacity if `s` is, and every cell below the top two of `s` as it
was. -/
def Kept (s : State) (l : List Word) : Prop :=
  (s.sp ≤ s.cap → l.length ≤ s.cap) ∧ ∀ k, k + 2 < s.sp → l[k]? = s.stk[k]?

/-- The stack as it was is kept. -/
theorem Kept.self (s : State) : Kept s s.stk := ⟨id, fun _ _ => rfl⟩

/-- A Word more, with room for it. -/
theorem Kept.push {s : State} (v : Word) (h : s.sp ≠ s.cap) : Kept s (s.stk ++ [v]) := by
  refine ⟨fun hc => ?_, fun k hk => ?_⟩
  · simp only [State.sp] at *; simp; omega
  · have hk' : k < s.stk.length := by simp only [State.sp] at hk; omega
    rw [List.getElem?_append_left hk']

/-- At most two Words in the place of the top two. -/
theorem Kept.popped {s : State} {rest : List Word} {b a : Word} (h : s.stk = rest ++ [b, a]) {l : List Word}
    (hl : l.length ≤ 2) : Kept s (rest ++ l) := by
  have hsp : s.sp = rest.length + 2 := by simp [State.sp, h]
  refine ⟨fun hc => by simp; omega, fun k hk => ?_⟩
  have hk' : k < rest.length := by omega
  rw [h, List.getElem?_append_left hk', List.getElem?_append_left hk']

/-- A handler result over `s` that writes the stack only: the rest of the stack is kept, and it takes away at most `k` Words on
success, at most two on an error. -/
def StackOnly (s : State) (k : Nat) (r : HandlerResult) : Prop :=
  ∃ l : List Word, Kept s l ∧
    ((s.sp ≤ l.length + k ∧ r = .success (s.setStk l)) ∨ (s.sp ≤ l.length + 2 ∧ ∃ e, r = .raise e (s.setStk l)))

/-- An error raised with the stack as it was. -/
theorem StackOnly.raise_self (s : State) (k : Nat) (e : ErrorKind) : StackOnly s k (.raise e s) :=
  ⟨s.stk, .self s, .inr ⟨Nat.le_add_right _ _, e, by simp⟩⟩

/-- A push on the stack as it was. -/
theorem StackOnly.push_self (s : State) (k : Nat) (v : Word) : StackOnly s k (pushAndSucceed v s) := by
  rcases pushAndSucceed_cases v s with ⟨h, e⟩ | ⟨h, e⟩ <;> rw [e]
  · exact ⟨s.stk ++ [v], .push v h, .inl ⟨by simp [State.sp]; omega, rfl⟩⟩
  · exact StackOnly.raise_self s k _

/-- A push after two pops. -/
theorem StackOnly.push_popped {s : State} {rest : List Word} {b a : Word} (v : Word) (h : s.stk = rest ++ [b, a]) :
    StackOnly s 1 (pushAndSucceed v (s.setStk rest)) := by
  have hsp : s.sp = rest.length + 2 := by simp [State.sp, h]
  rcases pushAndSucceed_cases v (s.setStk rest) with ⟨_, e⟩ | ⟨_, e⟩ <;> rw [e]
  · exact ⟨rest ++ [v], .popped h (by simp), .inl ⟨by simp; omega, by simp⟩⟩
  · exact ⟨rest ++ [], .popped h (by simp), .inr ⟨by simp; omega, .stackOverflow, by simp⟩⟩

/-- The restore after two pops. -/
theorem StackOnly.restore_popped {s : State} {rest : List Word} {b a : Word} (x y : Int) (h : s.stk = rest ++ [b, a]) :
    StackOnly s 1 (restoreAndOverflow x y (s.setStk rest)) := by
  have hsp : s.sp = rest.length + 2 := by simp [State.sp, h]
  by_cases h1 : (s.setStk rest).sp = (s.setStk rest).cap
  · exact ⟨rest ++ [], .popped h (by simp),
      .inr ⟨by simp; omega, .stackOverflow, by simp only [restoreAndOverflow, push_full h1, retag, List.append_nil]⟩⟩
  · have e1 : push (bits64 y) (s.setStk rest) = .ok (s.setStk (rest ++ [bits64 y])) := push_ok h1
    by_cases h2 : (s.setStk (rest ++ [bits64 y])).sp = (s.setStk (rest ++ [bits64 y])).cap
    · exact ⟨rest ++ [bits64 y], .popped h (by simp),
        .inr ⟨by simp; omega, .stackOverflow, by simp only [restoreAndOverflow, e1, push_full h2, retag]⟩⟩
    · exact ⟨rest ++ [bits64 y, bits64 x], .popped h (by simp),
        .inr ⟨by simp; omega, .overflow, by simp only [restoreAndOverflow, e1, push_ok h2]; simp⟩⟩

/-- A checked result after two pops. -/
theorem StackOnly.checked_popped {s : State} {rest : List Word} {b a : Word} (x y r : Int)
    (h : s.stk = rest ++ [b, a]) : StackOnly s 1 (pushChecked x y r (s.setStk rest)) := by
  unfold pushChecked
  split
  · exact .push_popped _ h
  · exact .restore_popped _ _ h

theorem handlePush_stackOnly (op : Word) (s : State) : StackOnly s 1 (handlePush op s) := .push_self s 1 _

theorem handleDuplicate_stackOnly (op : Word) (s : State) : StackOnly s 1 (handleDuplicate op s) := by
  unfold handleDuplicate
  split
  · exact .raise_self _ _ _
  · split
    · exact .raise_self _ _ _
    · exact .push_self _ _ _

theorem handlePlus_stackOnly (s : State) : StackOnly s 1 (handlePlus s) := by
  by_cases h : s.sp < 2
  · simp only [handlePlus, popOperands_short h]; exact .raise_self _ _ _
  · obtain ⟨rest, b, a, hs⟩ := exists_two h
    simp only [handlePlus, popOperands_concat hs]; exact .checked_popped _ _ _ hs

theorem handleMinus_stackOnly (s : State) : StackOnly s 1 (handleMinus s) := by
  by_cases h : s.sp < 2
  · simp only [handleMinus, popOperands_short h]; exact .raise_self _ _ _
  · obtain ⟨rest, b, a, hs⟩ := exists_two h
    simp only [handleMinus, popOperands_concat hs]; exact .push_popped _ hs

theorem handleMultiply_stackOnly (s : State) : StackOnly s 1 (handleMultiply s) := by
  by_cases h : s.sp < 2
  · simp only [handleMultiply, popOperands_short h]; exact .raise_self _ _ _
  · obtain ⟨rest, b, a, hs⟩ := exists_two h
    simp only [handleMultiply, popOperands_concat hs]; exact .checked_popped _ _ _ hs

theorem handleDivide_stackOnly (s : State) : StackOnly s 1 (handleDivide s) := by
  by_cases h : s.sp < 2
  · simp only [handleDivide, popOperands_short h]; exact .raise_self _ _ _
  · obtain ⟨rest, b, a, hs⟩ := exists_two h
    have hsp : s.sp = rest.length + 2 := by simp [State.sp, hs]
    simp only [handleDivide, popOperands_concat hs]
    split
    · exact ⟨rest ++ [], .popped hs (by simp), .inr ⟨by simp; omega, .divisionByZero, by simp⟩⟩
    · split
      · exact .restore_popped _ _ hs
      · exact .push_popped _ hs

/-! ### The ends of an Exec step -/

@[simp] theorem complete_success (i : Instr) (s : State) : complete i (.success s) = .next (advance s) := rfl
@[simp] theorem complete_raise (i : Instr) (e : ErrorKind) (s : State) : complete i (.raise e s) = .next (halt e i s) := rfl
@[simp] theorem completeJump_success (i : Instr) (s : State) : completeJump i (.success s) = .next s := rfl
@[simp] theorem completeJump_raise (i : Instr) (e : ErrorKind) (s : State) :
    completeJump i (.raise e s) = .next (halt e i s) := rfl

/-- Everything an Exec step can do, in any state: advance over a new stack of at most one Word less; advance after a dump;
jump to a target within `LEN`; or halt with a stack of at most two Words less. The third is JUMP's alone. -/
inductive ExecEnd (i : Instr) (s t : State) : Prop where
  | advanced (l : List Word) (hl : Kept s l) (hsp : s.sp ≤ l.length + 1)
      (hi : ∀ op, i ≠ .jump op) (h : t = advance (s.setStk l))
  | dumped (hi : ∀ op, i ≠ .jump op) (h : t = advance (s.emit (.dump s.stk)))
  | jumped (op : Word) (hi : i = .jump op) (hle : op.toNat ≤ s.len.toNat) (h : t = s.setIp op)
  | halted (e : ErrorKind) (l : List Word) (hl : Kept s l) (hsp : s.sp ≤ l.length + 2)
      (h : t = halt e i (s.setStk l))

/-- An opcode other than JUMP whose handler writes the stack only. -/
theorem ExecEnd.of_stackOnly {i : Instr} {s : State} {r : HandlerResult} (hi : ∀ op, i ≠ .jump op)
    (h : StackOnly s 1 r) : ∃ t, complete i r = .next t ∧ ExecEnd i s t := by
  obtain ⟨l, hl, ⟨hsp, rfl⟩ | ⟨hsp, e, rfl⟩⟩ := h
  · exact ⟨_, rfl, .advanced l hl hsp hi rfl⟩
  · exact ⟨_, rfl, .halted e l hl hsp rfl⟩

/-- The inversion lemma of `exec`. -/
theorem exec_cases (i : Instr) (s : State) : ∃ t, exec i s = .next t ∧ ExecEnd i s t := by
  cases i with
  | push op => exact ExecEnd.of_stackOnly (by simp) (handlePush_stackOnly op s)
  | plus op => exact ExecEnd.of_stackOnly (by simp) (handlePlus_stackOnly s)
  | minus op => exact ExecEnd.of_stackOnly (by simp) (handleMinus_stackOnly s)
  | multiply op => exact ExecEnd.of_stackOnly (by simp) (handleMultiply_stackOnly s)
  | divide op => exact ExecEnd.of_stackOnly (by simp) (handleDivide_stackOnly s)
  | dump op => exact ⟨_, rfl, .dumped (by simp) rfl⟩
  | jump op =>
    by_cases h : s.len.toNat < op.toNat
    · refine ⟨halt .illegalPointer (.jump op) s, ?_, .halted .illegalPointer s.stk (.self s) (Nat.le_add_right _ _) rfl⟩
      simp [exec, execJump, handleJump, jumpTarget, u64, h]
    · refine ⟨s.setIp op, ?_, .jumped op rfl (by omega) rfl⟩
      simp [exec, execJump, handleJump, jumpTarget, u64, h]
  | duplicate op => exact ExecEnd.of_stackOnly (by simp) (handleDuplicate_stackOnly op s)

/-- The next state of `exec`, inverted. -/
theorem ExecEnd.of_exec {i : Instr} {s t : State} (h : exec i s = .next t) : ExecEnd i s t := by
  obtain ⟨u, hu, hc⟩ := exec_cases i s
  rw [hu] at h
  injection h with h
  exact h ▸ hc

/-! ### The engine loop -/

theorem running_iff (s : State) : running s = true ↔ s.halted = false ∧ s.ip.toNat < s.len.toNat := by
  simp [running]

theorem finishEnabled_iff (s : State) : finishEnabled s = true ↔ s.halted = false ∧ s.ip = s.len ∧ s.len ≠ 0 := by
  simp [finishEnabled]

theorem finished_iff (s : State) : finished s = true ↔ s.halted = false ∧ s.len.toNat ≤ s.ip.toNat := by
  simp [finished]

/-- The inversion lemma of `step`: a next state comes from Exec or from Finish. -/
theorem step_next_cases {s t : State} (h : step s = .next t) :
    (running s = true ∧ ∃ i, fetch s = some i ∧ exec i s = .next t ∧ ExecEnd i s t) ∨
      (finishEnabled s = true ∧ t = finish s) := by
  unfold step at h
  split at h
  · rename_i hr
    split at h
    · rename_i i hf
      exact .inl ⟨hr, i, hf, h, .of_exec h⟩
    · cases h
  · split at h
    · rename_i hf
      injection h with h
      exact .inr ⟨hf, h.symm⟩
    · cases h

/-- A property that holds at `s` and that every step keeps holds of every state a run from `s` goes through. -/
theorem Reaches.induct {P : State → Prop} (keeps : ∀ s t, P s → step s = .next t → P t) {s t : State}
    (h : Reaches s t) (h0 : P s) : P t := by
  induction h with
  | here => exact h0
  | next _ hs ih => exact keeps _ _ ih hs

end Sys2Proof.Machine
end

