-- ==== Sys2Proof/Laws/PerInstr.lean ====
section
/-! SUPPORT. Statements made of every instruction as syntax, one lemma per constructor. -/

namespace Sys2Proof.Laws.Codec

/-- An instruction's record is its tag and its operand's bytes, nine in all; the tag is one of the eight and the instruction
is well formed; and the decoder reads the record alone back as the one-instruction program (30_encoding.md R47, R49, R53,
R54, R57). -/
def Statement (i : Instr) : Prop :=
  (encodeInstr i).length = Config.recordBytes ∧ i.tag.toNat ≤ 7 ∧ i.wf = true ∧
    decode (encodeInstr i) = .program [i]

/-- One record decodes to its instruction, whatever the instruction. -/
theorem decode_encodeInstr (i : Instr) : decode (encodeInstr i) = .program [i] := by
  have h := decodeFrom_encodeInstr 0 i []
  rw [List.append_nil] at h
  unfold decode
  rw [h]
  simp [Config.recordBytes, Config.tagBytes, Config.operandBytes, Config.nmax, decodeFrom]

/-- Every tag is one of the eight (30_encoding.md R49). -/
theorem tag_le (i : Instr) : i.tag.toNat ≤ 7 := by cases i <;> simp [Instr.tag]

/-- Every instruction is well formed (30_encoding.md R53). -/
theorem wf_true (i : Instr) : i.wf = true := by cases i <;> rfl

theorem push (op : Word) : Statement (.push op) := ⟨rfl, tag_le _, wf_true _, decode_encodeInstr _⟩
theorem plus (op : Word) : Statement (.plus op) := ⟨rfl, tag_le _, wf_true _, decode_encodeInstr _⟩
theorem minus (op : Word) : Statement (.minus op) := ⟨rfl, tag_le _, wf_true _, decode_encodeInstr _⟩
theorem multiply (op : Word) : Statement (.multiply op) := ⟨rfl, tag_le _, wf_true _, decode_encodeInstr _⟩
theorem divide (op : Word) : Statement (.divide op) := ⟨rfl, tag_le _, wf_true _, decode_encodeInstr _⟩
theorem dump (op : Word) : Statement (.dump op) := ⟨rfl, tag_le _, wf_true _, decode_encodeInstr _⟩
theorem jump (op : Word) : Statement (.jump op) := ⟨rfl, tag_le _, wf_true _, decode_encodeInstr _⟩
theorem duplicate (op : Word) : Statement (.duplicate op) := ⟨rfl, tag_le _, wf_true _, decode_encodeInstr _⟩

end Sys2Proof.Laws.Codec
end

