-- ==== Sys2Proof/Machine/Assembler.lean ====
section
/-! DEFINITION. The external tools' formats as far as the spec gives them (30_encoding.md R58 to R62). They are outside the
core (00_scope.md R4) and nothing in the step uses them; what the spec leaves open of the text is fixed in log 17 and 18. -/

namespace Sys2Proof.Machine

/-- The assembler's spelling of each opcode (30_encoding.md R49, R59; the last four are decision D20). -/
def mnemonicText : Opcode → List Char
  | .push => ['p', 'u', 's', 'h']
  | .plus => ['p', 'l', 'u', 's']
  | .minus => ['m', 'i', 'n', 'u', 's']
  | .multiply => ['m', 'u', 'l', 't', 'i', 'p', 'l', 'y']
  | .divide => ['d', 'i', 'v', 'i', 'd', 'e']
  | .dump => ['d', 'u', 'm', 'p']
  | .jump => ['j', 'm', 'p']
  | .duplicate => ['d', 'u', 'p']

/-- The eight opcodes in the order of R49. -/
def allOpcodes : List Opcode := [.push, .plus, .minus, .multiply, .divide, .dump, .jump, .duplicate]

/-- The opcode a mnemonic names; any other text is "an unrecognized mnemonic" (R58). -/
def opcodeOfMnemonic (m : List Char) : Option Opcode := allOpcodes.find? (fun o => mnemonicText o == m)

/-- The white space that separates a mnemonic from its operand (R58; log 17). -/
def isBlank (c : Char) : Bool := c == ' ' || c == '\t'

/-- A line cut at its white space (R58). -/
def tokens : List Char → List (List Char)
  | [] => []
  | [c] => if isBlank c then [] else [[c]]
  | c :: d :: rest =>
    if isBlank c then tokens (d :: rest)
    else if isBlank d then [c] :: tokens rest
    else
      match tokens (d :: rest) with
      | [] => [[c]]
      | t :: ts => (c :: t) :: ts

/-- The value of decimal digits after those read into `acc`; `none` where a character is no digit. -/
def digitsFrom (acc : Nat) : List Char → Option Nat
  | [] => some acc
  | c :: rest => if 48 ≤ c.toNat ∧ c.toNat ≤ 57 then digitsFrom (acc * 10 + (c.toNat - 48)) rest else none

/-- The value of a non-empty sequence of decimal digits. -/
def digits (l : List Char) : Option Nat := if l.isEmpty then none else digitsFrom 0 l

/-- The low 63 bits of the binary64 pattern of `n / d`, rounded to nearest, ties to even (R60; 93_implementation_defined.md
G2): a quotient of 53 bits over a power of two not below `2^-1074`; past the largest finite value, infinity (log 17). -/
def roundBinary64 (n d : Nat) : Nat :=
  if n = 0 then 0
  else
    let scaled (e : Int) : Nat × Nat := (n * 2 ^ (-e).toNat, d * 2 ^ e.toNat)
    let e1 : Int := (Nat.log2 n : Int) - (Nat.log2 d : Int) - 53
    let e2 : Int := if 2 ^ 53 ≤ (scaled e1).1 / (scaled e1).2 then e1 + 1 else e1
    let e : Int := if e2 < -1074 then -1074 else e2
    let q := (scaled e).1 / (scaled e).2
    let r := (scaled e).1 % (scaled e).2
    let q' := if (scaled e).2 < 2 * r ∨ ((scaled e).2 = 2 * r ∧ q % 2 = 1) then q + 1 else q
    min ((e + 1074).toNat * 2 ^ 52 + q') (0x7FF * 2 ^ 52)

/-- The Word of a decimal floating-point numeral with digits `whole` before the point and `frac` after it (R60 case 1). -/
def floatLiteral (negative : Bool) (whole frac : List Char) : Option Word :=
  match digits whole, digits frac with
  | some _, some _ =>
    match digits (whole ++ frac) with
    | some n => some (BitVec.ofBool negative ++ BitVec.ofNat 63 (roundBinary64 n (10 ^ frac.length)))
    | none => none
  | _, _ => none

/-- The Word of an integer literal: signed where it fits, else unsigned where it fits (R60 cases 2 to 4). -/
def integerLiteral (negative : Bool) (ds : List Char) : Option Word :=
  match digits ds with
  | none => none
  | some n =>
    if negative then (if n ≤ 9223372036854775808 then some (bits64 (-(n : Int))) else none)
    else if n ≤ 9223372036854775807 then some (bits64 n)
    else if n ≤ 18446744073709551615 then some (bits64 n)
    else none

/-- An unsigned literal: a float if it contains a decimal point, else an integer (R60). -/
def magnitudeLiteral (negative : Bool) (l : List Char) : Option Word :=
  if l.contains '.' then
    floatLiteral negative (l.takeWhile (fun c => c != '.')) ((l.dropWhile (fun c => c != '.')).drop 1)
  else integerLiteral negative l

/-- An operand literal (R60); `none` is "unparseable operand", a fatal input error (R58). -/
def literal : List Char → Option Word
  | '-' :: rest => magnitudeLiteral true rest
  | l => magnitudeLiteral false l

/-- One assembler line (R58, R59): `push`, `jmp` and `dup` take one operand, the other five none and store the zero Word;
`none` is the fatal input error. -/
def assembleLine (line : List Char) : Option Instr :=
  match tokens line with
  | [m] =>
    match opcodeOfMnemonic m with
    | some o => if operandUsed o then none else some (instrOf o 0)
    | none => none
  | [m, l] =>
    match opcodeOfMnemonic m, literal l with
    | some o, some w => if operandUsed o then some (instrOf o w) else none
    | _, _ => none
  | _ => none

/-- A program text: line `i` is instruction `i`; one bad line and there is no program (R58, R61). -/
def assemble : List (List Char) → Option (List Instr)
  | [] => some []
  | line :: rest =>
    match assembleLine line, assemble rest with
    | some i, some p => some (i :: p)
    | _, _ => none

/-- The image of a program text (R53, R58). -/
def assembleImage (text : List (List Char)) : Option (List Byte) := (assemble text).map encode

/-- What a disassembler line shows: the index, the mnemonic, and the operand "only for opcodes that require one" (R62). How
it is laid out as text is open (`DISASM_FORMAT`, decision D26; log 18). -/
structure ListingRow where
  index : Nat
  mnemonic : List Char
  operand : Option Word
  deriving DecidableEq, Repr

/-- The rows of a listing from index `n` on (R62). -/
def disassembleFrom (n : Nat) : List Instr → List ListingRow
  | [] => []
  | i :: rest =>
    { index := n, mnemonic := mnemonicText (opcodeOf i),
      operand := if operandUsed (opcodeOf i) then some i.operand else none } :: disassembleFrom (n + 1) rest

/-- The disassembler's listing of a program (R62). -/
def disassemble (p : List Instr) : List ListingRow := disassembleFrom 0 p

end Sys2Proof.Machine
end

