-- ==== Sys2Proof/Tests/Slice0.lean ====
section
/-! SUPPORT. Small tests, each of one operation or one step, with the expected result taken from the vectors and examples of
spec/ (named in each docstring), the smoke tests of WellFormed, and the witnesses that the hypotheses of the statements in
Certificates/Slice0/Obligations.lean can be met. -/

namespace Sys2Proof.Tests

open Sys2Proof.Machine

/-- A running state: capacity `cap`, program `prog`, at index `ip`, with the stack `stk`. -/
def mk (cap : Nat) (prog : List Instr) (ip : Word) (stk : List Word) : State :=
  { State.fresh cap prog with ip := ip, stk := stk }

/-- A state of capacity 90 about to run `i` alone. -/
def one (i : Instr) (stk : List Word) : State := mk 90 [i] 0 stk

/-- The next state of an outcome, if it is one. -/
def nextOf : Host.Outcome State Fault Refusal → Option State
  | .next s => some s
  | .fault _ => none
  | .refused _ => none

/-- What a step leaves of stack, `IP`, `CAUSE` and `LEN`. -/
def after (s : State) : Option (List Word × Word × Option ErrorKind × Word) :=
  (nextOf (step s)).map fun t => (t.stk, t.ip, t.cause, t.len)

/-! ### WellFormed: what each check refuses -/

/-- Every program above `NMAX` is refused. -/
theorem long_program_refused (p : List Instr) (h : 9223372036854775807 < p.length) : Program.wf p = false := by
  rw [← Bool.not_eq_true, programWf_iff]
  omega

/-- A program above `NMAX` (00_scope.md R5). -/
theorem test_wf_refuses_long_program : Program.wf (List.replicate 9223372036854775808 (.dump 0)) = false :=
  long_program_refused _ (by rw [List.length_replicate]; decide)

theorem test_wf_accepts_empty_program : Program.wf [] = true := by decide

/-- A residual byte (V-DC5). -/
theorem test_wf_refuses_residue : Image.wf [0x00, 1, 0, 0, 0, 0, 0, 0, 0, 0x05] = false := by decide

/-- A tag of 8 (V-DC3). -/
theorem test_wf_refuses_tag : Image.wf [0x08, 0, 0, 0, 0, 0, 0, 0, 0] = false := by decide

/-- Every image of more than `NMAX` records is refused. -/
theorem long_image_refused (img : List Byte) (h : 9223372036854775807 < img.length / 9) : Image.wf img = false := by
  have hn : decide (img.length / Config.recordBytes ≤ Config.nmax) = false := decide_eq_false (Nat.not_le.2 h)
  rw [Image.wf, hn, Bool.false_and, Bool.and_false]

/-- An image of more than `NMAX` records. -/
theorem test_wf_refuses_long_image : Image.wf (List.replicate 83010348331692982272 0) = false :=
  long_image_refused _ (by rw [List.length_replicate]; decide)

theorem test_wf_accepts_record : Image.wf [0x07, 1, 0, 0, 0, 0, 0, 0, 0] = true := by decide

/-! ### Decoding, from words written out from R47 to R49 -/

/-- V-CD1: `00 01 00 00 00 00 00 00 00`. -/
theorem test_decode_push : decode [0x00, 0x01, 0, 0, 0, 0, 0, 0, 0] = .program [.push 1] := by decide

/-- V-CD5, the byte-order witness. -/
theorem test_decode_push_order :
    decode [0x00, 0xEF, 0xCD, 0xAB, 0x89, 0x67, 0x45, 0x23, 0x01] = .program [.push 0x0123456789ABCDEF] := by decide

/-- V-DC2: an unused operand is kept. -/
theorem test_decode_plus : decode [0x01, 0xEF, 0xBE, 0xAD, 0xDE, 0, 0, 0, 0] = .program [.plus 0xDEADBEEF] := by decide

/-- V-CD10. -/
theorem test_decode_minus : decode [0x02, 0, 0, 0, 0, 0, 0, 0, 0] = .program [.minus 0] := by decide

/-- V-CD11. -/
theorem test_decode_multiply : decode [0x03, 0, 0, 0, 0, 0, 0, 0, 0] = .program [.multiply 0] := by decide

/-- V-CD12. -/
theorem test_decode_divide : decode [0x04, 0, 0, 0, 0, 0, 0, 0, 0] = .program [.divide 0] := by decide

/-- V-CD13. -/
theorem test_decode_dump : decode [0x05, 0, 0, 0, 0, 0, 0, 0, 0] = .program [.dump 0] := by decide

/-- V-CD3. -/
theorem test_decode_jump : decode [0x06, 0x02, 0, 0, 0, 0, 0, 0, 0] = .program [.jump 2] := by decide

/-- V-CD4. -/
theorem test_decode_duplicate : decode [0x07, 0x01, 0, 0, 0, 0, 0, 0, 0] = .program [.duplicate 1] := by decide

/-- V-DC1: the empty image is the empty program. -/
theorem test_decode_empty : decode [] = .program [] := by decide

/-- V-DC4: the second record's tag is 255. -/
theorem test_decode_unknown : decode [0, 1, 0, 0, 0, 0, 0, 0, 0, 0xFF, 0, 0, 0, 0, 0, 0, 0, 0] =
    .error (.unknownOpcode 1 255) := by decide

/-- V-DC7: the length is checked before any tag. -/
theorem test_decode_residue_first : decode [8, 0, 0, 0, 0, 0, 0, 0, 0, 0] = .error (.residualBytes 1) := by decide

/-- V-CD5 as the 72-bit view of R48. -/
theorem test_table_word : decodeTableWord 72 0x0123456789ABCDEF00 = some (.push 0x0123456789ABCDEF) := by decide

/-- V-CD2: `push -7`, encoded. -/
theorem test_encode_push : encode [.push 0xFFFFFFFFFFFFFFF9] =
    [0x00, 0xF9, 0xFF, 0xFF, 0xFF, 0xFF, 0xFF, 0xFF, 0xFF] := by decide

/-! ### Instructions -/

/-- V-SD2. -/
theorem test_push : after (one (.push 0xFFFFFFFFFFFFFFF9) [1]) = some ([1, 0xFFFFFFFFFFFFFFF9], 1, none, 1) := by decide

/-- V-SD3: a full stack of capacity 3. -/
theorem test_push_full : after (mk 3 [.push 1] 0 [1, 1, 1]) = some ([1, 1, 1], 0, some .stackOverflow, 0) := by decide

/-- V-SD6: the bottom of three. -/
theorem test_duplicate : after (one (.duplicate 2) [10, 20, 30]) = some ([10, 20, 30, 10], 1, none, 1) := by decide

/-- V-SD11: both errors, the index first. -/
theorem test_duplicate_order : after (mk 2 [.duplicate 5] 0 [1, 2]) = some ([1, 2], 0, some .indexOutOfRange, 0) := by
  decide

/-- V-PL10: cells below untouched. -/
theorem test_plus : after (one (.plus 0) [9, 2, 3]) = some ([9, 5], 1, none, 1) := by decide

/-- V-PL5: the source's operands, restored in their order. -/
theorem test_plus_overflow : after (one (.plus 0) [0x7FFFFFFFFFFFFFFF, 2]) =
    some ([0x7FFFFFFFFFFFFFFF, 2], 0, some .overflow, 0) := by decide

/-- V-MN2: `3 - 5`, top minus second. -/
theorem test_minus : after (one (.minus 0) [5, 3]) = some ([0xFFFFFFFFFFFFFFFE], 1, none, 1) := by decide

/-- V-MN4: `MIN64 - 1` wraps. -/
theorem test_minus_wraps : after (one (.minus 0) [1, 0x8000000000000000]) = some ([0x7FFFFFFFFFFFFFFF], 1, none, 1) := by
  decide

/-- V-ML7: the largest square that fits. -/
theorem test_multiply : after (one (.multiply 0) [3037000499, 3037000499]) = some ([0x7FFFFFFE9EA1DC29], 1, none, 1) := by
  decide

/-- V-ML5: `MIN64 * -1`. -/
theorem test_multiply_overflow : after (one (.multiply 0) [0xFFFFFFFFFFFFFFFF, 0x8000000000000000]) =
    some ([0xFFFFFFFFFFFFFFFF, 0x8000000000000000], 0, some .overflow, 0) := by decide

/-- V-DV4: `-7 / 2` rounds toward zero. -/
theorem test_divide : after (one (.divide 0) [2, 0xFFFFFFFFFFFFFFF9]) = some ([0xFFFFFFFFFFFFFFFD], 1, none, 1) := by decide

/-- V-DV9: the operands are gone. -/
theorem test_divide_by_zero : after (one (.divide 0) [9, 0, 5]) = some ([9], 0, some .divisionByZero, 0) := by decide

/-- V-DM2: raw Words, bottom first. -/
theorem test_dump : (nextOf (step (one (.dump 0) [10, 20, 30]))).map (·.out) =
    some [.dump [0x0A, 0x14, 0x1E]] := by decide

/-- V-JP1: absolute, not 5. -/
theorem test_jump : after (mk 90 [.dump 0, .jump 4, .dump 0, .dump 0, .dump 0, .dump 0, .dump 0] 1 []) =
    some ([], 4, none, 7) := by decide

/-- V-JP4, the halt transition in full (95_test_vectors.md). -/
theorem test_jump_halts : nextOf (step (mk 90 [.push 1, .jump 3] 1 [1])) =
    some { stk := [1], ip := 1, len := 0, halted := true, cause := some .illegalPointer,
           out := [.diag .illegalPointer [1] 1 .jump 3], prog := [.push 1, .jump 3], cap := 90 } := by decide

/-- V-JP3: after `jmp 7` at `N = 7`, Finish. -/
theorem test_finish : after (mk 90 (List.replicate 7 (.dump 0)) 7 [3]) = some ([3], 7, none, 0) := by decide

/-- V-EN2: the empty program's reset state has no step. -/
theorem test_reset_has_no_step : nextOf (step State.reset) = none := by decide

/-- A table word placed after reset is run by the next step: `push 1`. -/
theorem test_withFetchWord : (nextOf (step (State.reset.withFetchWord 72 0x000000000000000100))).map (·.stk) =
    some [1] := by decide

/-! ### The Word, boot, status and the tools -/

/-- V-WD4 and V-WD9. -/
theorem test_repack : asUnsigned (fromSigned (-7)) = 18446744073709551609 ∧
    asSigned 0x3FF0000000000000 = 4607182418800017408 := by decide

/-- R15: 1.0, and a NaN kept (V-WD13). -/
theorem test_float : floatValue (asFloat 0x3FF0000000000000) = some (4503599627370496, -52) ∧
    floatClass (asFloat 0x7FF8000000000001) = .nan ∧ fromFloat (asFloat 0x7FF8000000000001) = 0x7FF8000000000001 := by
  decide

/-- R108: an image boots to the reset state of its program; V-DC6 does not boot. -/
theorem test_boot : boot [0x06, 0, 0, 0, 0, 0, 0, 0, 0] = .released (State.fresh 90 [.jump 0]) ∧
    boot [0x00, 1, 0, 0, 0, 0, 0, 0] = .heldInReset (.residualBytes 8) := by decide

/-- R31, R88: the status of the halted state of P17. -/
theorem test_status : (nextOf (step (one (.plus 0) []))).map status =
    some (some { ip := 0, len := 0, halted := true, causeBits := 1, sp := 0, stk := [] }) := by decide

/-- The lines of P4 and P6, and `push -1` (P8): R60. -/
theorem test_assemble_push :
    assembleLine ['p', 'u', 's', 'h', ' ', '1', '.', '0'] = some (.push 0x3FF0000000000000) ∧
    assembleLine ['p', 'u', 's', 'h', ' ', '-', '1'] = some (.push 0xFFFFFFFFFFFFFFFF) := by decide

/-- 0.1 rounds up to 0x3FB999999999999A; `-0.0` (V-WD10). -/
theorem test_float_literal : literal ['0', '.', '1'] = some 0x3FB999999999999A ∧
    literal ['-', '0', '.', '0'] = some 0x8000000000000000 := by decide

/-- D20, R60: no operand where one is required, one where none is taken, and `1e5`, are fatal input errors. -/
theorem test_assemble_errors : assembleLine ['d', 'u', 'p'] = none ∧ assembleLine ['p', 'l', 'u', 's', ' ', '1'] = none ∧
    literal ['1', 'e', '5'] = none := by decide

/-! ### Witnesses: the hypotheses of the statements can be met -/

/-- DecodeOfEncodeIsTheProgram, BootLoadsTheImage, InvariantHoldsAtReset. -/
theorem witness_wf : Program.wf [.push 1, .jump 0] = true := by decide

/-- EncodeOfDecodeIsTheImage, InstructionIsItsRecord, BootLoadsTheImage (decoded). -/
theorem witness_decoded : decode [0x06, 2, 0, 0, 0, 0, 0, 0, 0] = .program [.jump 2] ∧
    ([.jump 2] : List Instr)[0]? = some (.jump 2) := by decide

/-- DecodeReportsTheFirstDefect, first and third clause, at the lowest bad tag; BootLoadsTheImage (refused). -/
theorem witness_defect : [(8 : Byte)].length % 9 ≠ 0 ∧ 7 < (8 : Byte).toNat ∧ ([] : List Byte).length % 9 = 0 ∧
    ([] : List Instr).length + 1 + ([] : List Byte).length / 9 ≤ Config.nmax ∧
    decode [8] = .error (.residualBytes 1) := by decide

/-- DecodeReportsTheFirstDefect, second clause, at `NMAX + 1` records. -/
theorem witness_too_long : (List.replicate 83010348331692982272 (0 : Byte)).length % 9 = 0 ∧
    Config.nmax < (List.replicate 83010348331692982272 (0 : Byte)).length / 9 := by
  rw [List.length_replicate]
  decide

/-- RepackingLosesNoBit at both ends of each range. -/
theorem witness_ranges : min64 ≤ min64 ∧ min64 ≤ max64 ∧ max64 ≤ max64 ∧ 2 ^ 64 - 1 < 2 ^ 64 := by decide

/-- PushPrimitive, PushCompletes, StackInstructionsHalt: full and not full, at capacity and one below. -/
theorem witness_room : (mk 3 [] 0 [1, 2, 3]).sp = (mk 3 [] 0 [1, 2, 3]).cap ∧
    (mk 3 [] 0 [1, 2]).sp ≠ (mk 3 [] 0 [1, 2]).cap := by decide

/-- PopPrimitive, all three clauses. -/
theorem witness_pop : (mk 3 [] 0 []).sp = 0 ∧ (mk 3 [] 0 [1, 2]).stk = [1] ++ [2] ∧
    push 5 (mk 3 [] 0 []) = .ok (mk 3 [] 0 [5]) := ⟨rfl, rfl, rfl⟩

/-- AtAndLengthPrimitives at the boundary (V-SK6, V-SK7). -/
theorem witness_at : (mk 3 [] 0 [1, 2, 3]).sp ≤ 3 ∧ (mk 3 [] 0 [1, 2, 3]).stk[2]? = some 3 ∧ 2 < (mk 3 [] 0 [1, 2, 3]).sp := by
  decide

/-- DuplicateCompletes at the deepest index, and StackInstructionsHalt's clauses where they meet (V-SD10, V-SD11). -/
theorem witness_duplicate : (2 : Word).toNat < (mk 90 [] 0 [10, 20, 30]).sp ∧
    (mk 90 [] 0 [10, 20, 30]).sp ≠ (mk 90 [] 0 [10, 20, 30]).cap ∧
    (mk 2 [] 0 [1, 2]).sp ≤ (2 : Word).toNat ∧ (1 : Word).toNat < (mk 2 [] 0 [1, 2]).sp ∧
    (mk 2 [] 0 [1, 2]).sp = (mk 2 [] 0 [1, 2]).cap := by decide

/-- PlusCompletes at the top of the range (V-PL3). -/
theorem witness_plus : (one (.plus 0) [1, 0x7FFFFFFFFFFFFFFE]).stk = [] ++ [1, 0x7FFFFFFFFFFFFFFE] ∧
    (one (.plus 0) [1, 0x7FFFFFFFFFFFFFFE]).sp ≤ (one (.plus 0) [1, 0x7FFFFFFFFFFFFFFE]).cap ∧
    min64 ≤ s64 0x7FFFFFFFFFFFFFFE + s64 1 ∧ s64 0x7FFFFFFFFFFFFFFE + s64 1 ≤ max64 := by decide

/-- MinusCompletes, both clauses. -/
theorem witness_minus : (one (.minus 0) [5, 3]).stk = [] ++ [5, 3] ∧ (one (.minus 0) [5, 3]).sp ≤ (one (.minus 0) [5, 3]).cap ∧
    min64 ≤ s64 3 - s64 5 ∧ s64 3 - s64 5 ≤ max64 := by decide

/-- MultiplyCompletes at the bottom of the range (V-ML10). -/
theorem witness_multiply : (one (.multiply 0) [2, 0xC000000000000000]).stk = [] ++ [2, 0xC000000000000000] ∧
    (one (.multiply 0) [2, 0xC000000000000000]).sp ≤ (one (.multiply 0) [2, 0xC000000000000000]).cap ∧
    min64 ≤ s64 0xC000000000000000 * s64 2 ∧ s64 0xC000000000000000 * s64 2 ≤ max64 := by decide

/-- DivideCompletes, next to the case left out (V-DV11). -/
theorem witness_divide : (one (.divide 0) [1, 0x8000000000000000]).stk = [] ++ [1, 0x8000000000000000] ∧
    (one (.divide 0) [1, 0x8000000000000000]).sp ≤ (one (.divide 0) [1, 0x8000000000000000]).cap ∧
    (1 : Word) ≠ 0 ∧ ¬ (s64 0x8000000000000000 = min64 ∧ s64 1 = -1) := by decide

/-- JumpCompletes and JumpBeyondLengthHalts, FrameOfDumpAndJump, on both sides of `LEN` (V-JP3, V-JP4). -/
theorem witness_jump : (2 : Word).toNat ≤ (mk 90 [.push 1, .jump 3] 1 [1]).len.toNat ∧
    (mk 90 [.push 1, .jump 3] 1 [1]).len.toNat < (3 : Word).toNat := by decide

/-- OperandOrderIsTopFirst, both clauses (V-MN1, V-DV1). -/
theorem witness_order : (one (.divide 0) [2, 10]).stk = [] ++ [2, 10] ∧ (one (.divide 0) [2, 10]).sp ≤ (one (.divide 0) [2, 10]).cap ∧
    min64 ≤ s64 10 - s64 2 ∧ s64 10 - s64 2 ≤ max64 ∧ s64 2 ≠ 0 ∧ s64 10 = 5 * s64 2 ∧ min64 ≤ 5 ∧ (5 : Int) ≤ max64 := by
  decide

/-- TooFewOperandsHalt, with one operand (P22). -/
theorem witness_too_few : (one (.divide 0) [4]).sp < 2 := by decide

/-- OverflowRestoresOperands, each clause at its boundary (V-PL6, V-PL7, V-ML9, V-DV10). -/
theorem witness_overflow : max64 < s64 1 + s64 0x7FFFFFFFFFFFFFFF ∧ s64 0xFFFFFFFFFFFFFFFF + s64 0x8000000000000000 < min64 ∧
    max64 < s64 0x4000000000000000 * s64 2 ∧ s64 0x8000000000000000 = min64 ∧ s64 0xFFFFFFFFFFFFFFFF = -1 ∧
    (one (.plus 0) [0x7FFFFFFFFFFFFFFF, 1]).stk = [] ++ [0x7FFFFFFFFFFFFFFF, 1] ∧
    (one (.plus 0) [0x7FFFFFFFFFFFFFFF, 1]).sp ≤ (one (.plus 0) [0x7FFFFFFFFFFFFFFF, 1]).cap := by decide

/-- DivisionByZeroDropsOperands (V-DV9). -/
theorem witness_zero_divisor : (one (.divide 0) [9, 0, 5]).stk = [9] ++ [0, 5] := by decide

/-- ErrorTableDecidesOutcome and PointerAdvancesExceptForJump, both clauses. -/
theorem witness_table : raises (.plus 0) (one (.plus 0) [2, 3]) = none ∧
    raises (.plus 0) (one (.plus 0) [3]) = some .notEnoughOperands ∧ raises (.jump 1) (one (.jump 1) []) = none ∧
    (one (.plus 0) [2, 3]).sp ≤ (one (.plus 0) [2, 3]).cap ∧
    (one (.plus 0) [2, 3]).ip.toNat < (one (.plus 0) [2, 3]).len.toNat ∧
    (nextOf (exec (.plus 0) (one (.plus 0) [2, 3]))).isSome = true := by decide

/-- FrameOfStackInstructions, for an instruction that adds a cell and one that takes two for one. -/
theorem witness_frame : raises (.push 1) (one (.push 1) [7]) = none ∧ raises (.minus 0) (one (.minus 0) [7, 2, 3]) = none ∧
    after (one (.push 1) [7]) = some ([7, 1], 1, none, 1) ∧ after (one (.minus 0) [7, 2, 3]) = some ([7, 1], 1, none, 1) := by
  decide

/-- FrameOfErrors. -/
theorem witness_error : (one (.plus 0) []).halted = false ∧
    (nextOf (exec (.plus 0) (one (.plus 0) []))).map (·.halted) = some true := by decide

/-- UnusedOperandIsIgnored: an error shows the operand, and only there. -/
theorem witness_unused : operandUsed (opcodeOf (.plus 5)) = false ∧
    (nextOf (exec (.plus 5) (one (.plus 5) []))).map (·.out) = some [.diag .notEnoughOperands [] 0 .plus 5] := by decide

/-- HandlersIgnoreControlState, on success and on an error. -/
theorem witness_handler : handlePlus (one (.plus 0) [2, 3]) = .success ((one (.plus 0) [2, 3]).setStk [5]) ∧
    handlePlus (one (.plus 0) [2]) = .raise .notEnoughOperands (one (.plus 0) [2]) := by decide

/-- DivisionRoundsTowardZero. -/
theorem witness_divisor : (2 : Int) ≠ 0 ∧ s64 0xFFFFFFFFFFFFFFFF ≠ 0 := by decide

/-- StepRunsTheFetchedInstruction and StepRunsTheDecodedRecord. -/
theorem witness_fetch : (one (.jump 2) []).halted = false ∧ (one (.jump 2) []).ip.toNat < (one (.jump 2) []).len.toNat ∧
    (one (.jump 2) []).prog[(one (.jump 2) []).ip.toNat]? = some (.jump 2) ∧
    decode [0x06, 2, 0, 0, 0, 0, 0, 0, 0] = .program (one (.jump 2) []).prog ∧
    decode (([0x06, 2, 0, 0, 0, 0, 0, 0, 0].drop (9 * (one (.jump 2) []).ip.toNat)).take 9) = .program [.jump 2] := by decide

/-- A reset state with a program keeps the invariants of 10_state.md R33 and runs: FetchNeverFails. -/
theorem witness_inv : Inv (one (.jump 0) []) ∧ running (one (.jump 0) []) = true := by
  refine ⟨⟨?_, ?_, ?_, ?_, ?_, ?_, ?_, ?_, ?_⟩, ?_⟩ <;> simp [one, mk, noDiag, Config.nmax, running, State.sp]

/-- The two cases of InvariantGivesProgress beside a running state: Finish next, and retired. -/
theorem witness_progress : Inv (mk 90 [.push 7] 1 [7]) ∧ Inv { mk 90 [.push 7] 1 [7] with len := 0 } := by
  constructor <;> refine ⟨?_, ?_, ?_, ?_, ?_, ?_, ?_, ?_, ?_⟩ <;> simp [mk, noDiag, Config.nmax, State.sp]

/-- StepKeepsTheInvariant, StepsOnlyMoveForward, StackFallsByAtMostOne: such a state has a next one. -/
theorem witness_step : step (one (.jump 0) []) = .next (one (.jump 0) []) := rfl

/-- StackFallsByAtMostOne, last clause (V-DV8). -/
theorem witness_two_fewer : (one (.divide 0) [0, 0]).sp ≤ (one (.divide 0) [0, 0]).cap ∧
    (nextOf (step (one (.divide 0) [0, 0]))).map State.sp = some 0 := by decide

/-- FinishRetiresTheCore (V-EN1). -/
theorem witness_finish : (mk 90 [.push 7] 1 [7]).halted = false ∧ (mk 90 [.push 7] 1 [7]).ip = (mk 90 [.push 7] 1 [7]).len ∧
    (mk 90 [.push 7] 1 [7]).len ≠ 0 := by decide

/-- TerminatedStatesHaveNoStep and HaltedCoreStaysHalted (V-EN2, V-EN3). -/
theorem witness_terminated : (halt .overflow (.plus 0) State.reset).halted = true ∧ State.reset.halted = false ∧
    State.reset.len = 0 := by decide

/-- ExactlyOneOfRunningHaltedFinished and StatusShowsTerminatedCores: each of the three. -/
theorem witness_predicates : running (one (.jump 0) []) = true ∧ finished State.reset = true ∧ retired State.reset = true ∧
    terminated (halt .overflow (.plus 0) State.reset) = true ∧ running State.reset = false := by decide

/-- ProgramIsImmutable and RunsAreSafe: a state after a step from reset. -/
theorem witness_reaches : Reaches (State.fresh 90 [.push 1]) (mk 90 [.push 1] 1 [1]) := .next .here rfl

/-- ControlFlowIgnoresTheStack: two stacks, one flow of control. -/
theorem witness_control : SameControl (one (.push 1) []) (one (.push 1) [5, 6]) ∧
    Sys2Proof.core.run 1 (one (.push 1) []) = .next (mk 90 [.push 1] 1 [1]) ∧
    Sys2Proof.core.run 1 (one (.push 1) [5, 6]) = .next (mk 90 [.push 1] 1 [5, 6, 1]) ∧
    (mk 90 [.push 1] 1 [1]).halted = false := ⟨⟨rfl, rfl, rfl, rfl⟩, rfl, rfl, rfl⟩

/-- PlacedInstructionRuns, from reset and within a program. -/
theorem witness_placed : State.reset.prog.length ≤ Config.nmax ∧ (one (.jump 0) []).prog.length ≤ Config.nmax := by decide

end Sys2Proof.Tests
end

section
/-! PROOFS. The stack primitives (10_state.md section 2): what `push` and `at(i)` answer, each as an equivalence, and the
obligations about the primitives. -/

namespace Sys2Proof.Machine

/-- `push` succeeds exactly below capacity, and then in the one state with `v` appended. -/
theorem push_eq_ok_iff {v : Word} {s t : State} :
    push v s = .ok t ↔ s.sp ≠ s.cap ∧ t = s.setStk (s.stk ++ [v]) := by
  by_cases h : s.sp = s.cap
  · simp [push_full h, h]
  · simp [push_ok h, h, eq_comm]

/-- `at(i)` answers a Word exactly when that Word is live cell `i`. -/
theorem stackAt_eq_ok_iff {i : Nat} {v : Word} {s : State} : stackAt i s = .ok v ↔ s.stk[i]? = some v := by
  unfold stackAt
  cases s.stk[i]? with
  | none => simp
  | some w => simp

/-- A pop after a successful push returns the Word pushed and the state before. -/
theorem pop_of_push_eq_ok {v : Word} {s t : State} (h : push v s = .ok t) : pop t = .ok (v, s) := by
  obtain ⟨-, rfl⟩ := push_eq_ok_iff.mp h
  simpa using pop_concat (State.setStk_stk s (s.stk ++ [v]))

/-- Settles O9: the full stack fails, any other takes the Word on top. -/
theorem pushPrimitive : Obligations.PushPrimitive :=
  fun _ _ => ⟨push_full, push_ok⟩

/-- Settles O10: the empty stack, a stack with a known top, and the stack a push has left. -/
theorem popPrimitive : Obligations.PopPrimitive :=
  ⟨fun _ h => pop_empty (List.eq_nil_of_length_eq_zero h), fun _ _ _ => pop_concat, fun _ _ _ => pop_of_push_eq_ok⟩

/-- Settles O11: below the length live cell `i` exists, and `at(i)` answers exactly that cell. -/
theorem atAndLengthPrimitives : Obligations.AtAndLengthPrimitives := by
  intro i s
  refine ⟨stackAt_ge, fun _ => stackAt_eq_ok_iff.mpr, fun hi => ?_, rfl⟩
  have hcell : s.stk[i]? = some s.stk[i] := List.getElem?_eq_getElem hi
  exact ⟨s.stk[i], hcell, stackAt_eq_ok_iff.mpr hcell⟩

end Sys2Proof.Machine
end

section
/-! PROOFS. Instruction-fetch coherence (20_memory.md section 6, R44): neither Exec nor Finish writes the two parameters of
a run, so no run does. -/

namespace Sys2Proof.Machine

/-- No end of an Exec step writes `PROG` or `C`. -/
theorem ExecEnd.prog_cap_eq {i : Instr} {s t : State} (h : ExecEnd i s t) : t.prog = s.prog ∧ t.cap = s.cap := by
  cases h with
  | advanced l _ _ _ ht => simp [ht]
  | dumped _ ht => simp [ht]
  | jumped op _ _ ht => simp [ht]
  | halted e l _ _ ht => simp [ht]

/-- No step writes `PROG` or `C`. -/
theorem step_prog_cap_eq {s t : State} (h : step s = .next t) : t.prog = s.prog ∧ t.cap = s.cap := by
  obtain ⟨_, i, _, _, hend⟩ | ⟨_, ht⟩ := step_next_cases h
  · exact hend.prog_cap_eq
  · simp [ht]

/-- No run writes `PROG` or `C`. -/
theorem Reaches.prog_cap_eq {s t : State} (h : Reaches s t) : t.prog = s.prog ∧ t.cap = s.cap :=
  h.induct (P := fun u => u.prog = s.prog ∧ u.cap = s.cap)
    (fun _ _ ⟨hprog, hcap⟩ hstep =>
      have ⟨hprog', hcap'⟩ := step_prog_cap_eq hstep
      ⟨hprog'.trans hprog, hcap'.trans hcap⟩)
    ⟨rfl, rfl⟩

/-- Settles O45: the program a run keeps has the same instruction at every index. -/
theorem programIsImmutable : Obligations.ProgramIsImmutable := by
  intro s t h
  obtain ⟨hprog, hcap⟩ := h.prog_cap_eq
  exact ⟨fun i => by rw [hprog], hprog, hcap⟩

end Sys2Proof.Machine
end

section
/-! PROOFS. The table of 60_exceptions.md R89 decides how each handler, and so each Exec step, ends within capacity. -/

namespace Sys2Proof.Machine

/-- The state a handler raises `e` in over `s`: `s` itself, but for a zero divisor, which leaves both operands popped
(60_exceptions.md R95). -/
def raisedIn (e : ErrorKind) (s : State) : State :=
  if e = .divisionByZero then s.setStk (s.stk.take (s.sp - 2)) else s

theorem raisedIn_of_ne {e : ErrorKind} (s : State) (h : e ≠ .divisionByZero) : raisedIn e s = s := if_neg h

theorem raisedIn_divisionByZero {s : State} {rest : List Word} {b a : Word} (h : s.stk = rest ++ [b, a]) :
    raisedIn .divisionByZero s = s.setStk rest := by
  simp [raisedIn, State.sp, h]

theorem raisedIn_ip (e : ErrorKind) (s : State) : (raisedIn e s).ip = s.ip := by
  unfold raisedIn
  split <;> rfl

/-- A handler result over `s` that is what the entry of the table says: the entry's error, or, where it has none, success
with nothing but stack and output written. -/
def FollowsTable (s : State) : Option ErrorKind → HandlerResult → Prop
  | none, r => ∃ stk out, r = .success { s with stk, out }
  | some e, r => r = .raise e (raisedIn e s)

theorem FollowsTable.setStk (s : State) (l : List Word) : FollowsTable s none (.success (s.setStk l)) :=
  ⟨l, s.out, rfl⟩

theorem FollowsTable.raise_self {e : ErrorKind} (s : State) (h : e ≠ .divisionByZero) :
    FollowsTable s (some e) (.raise e s) := by
  rw [FollowsTable, raisedIn_of_ne s h]

/-- A push on the stack as it was. -/
theorem FollowsTable.push_self (v : Word) (s : State) :
    FollowsTable s (if s.sp = s.cap then some .stackOverflow else none) (pushAndSucceed v s) := by
  obtain ⟨h, e⟩ | ⟨h, e⟩ := pushAndSucceed_cases v s
  · rw [if_neg h, e]
    exact .setStk s _
  · rw [if_pos h, e]
    exact .raise_self s (by decide)

/-- A checked result after two pops. -/
theorem FollowsTable.checked_popped {s : State} {rest : List Word} {b a : Word} (r : Int) (h : s.stk = rest ++ [b, a])
    (hc : s.sp ≤ s.cap) : FollowsTable s (if inRange r then none else some .overflow)
      (pushChecked (s64 a) (s64 b) r (s.setStk rest)) := by
  rw [pushChecked_popped r h hc]
  split
  · exact .setStk s _
  · exact .raise_self s (by decide)

/-- The duplicate index is not below the length. -/
theorem handleDuplicate_ge {op : Word} {s : State} (h : s.sp ≤ op.toNat) :
    handleDuplicate op s = .raise .indexOutOfRange s := if_pos h

/-- The duplicate index is below the length: its element is pushed. -/
theorem handleDuplicate_lt {op : Word} {s : State} (h : op.toNat < s.sp) :
    handleDuplicate op s = pushAndSucceed (s.stk.getD (s.sp - 1 - op.toNat) 0) s := by
  have hin : ¬ s.sp ≤ duplicateIndex op := Nat.not_le.mpr h
  have hat : s.sp - 1 - duplicateIndex op < s.sp := by omega
  rw [handleDuplicate, if_neg hin, stackAt_lt hat]
  rfl

theorem handleDuplicate_followsTable (op : Word) (s : State) :
    FollowsTable s (raises (.duplicate op) s) (handleDuplicate op s) := by
  by_cases h : s.sp ≤ op.toNat
  · rw [raises, if_pos h, handleDuplicate_ge h]
    exact .raise_self s (by decide)
  · rw [raises, if_neg h, handleDuplicate_lt (Nat.not_le.mp h)]
    exact .push_self _ s

theorem handlePlus_followsTable (op : Word) {s : State} (hc : s.sp ≤ s.cap) :
    FollowsTable s (raises (.plus op) s) (handlePlus s) := by
  by_cases h : s.sp < 2
  · simp only [raises, if_pos h, handlePlus, popOperands_short h]
    exact .raise_self s (by decide)
  · obtain ⟨rest, b, a, hs⟩ := exists_two h
    simp only [raises, if_neg h, handlePlus, popOperands_concat hs, topWord_concat hs, secondWord_concat hs]
    exact .checked_popped _ hs hc

theorem handleMinus_followsTable (op : Word) {s : State} (hc : s.sp ≤ s.cap) :
    FollowsTable s (raises (.minus op) s) (handleMinus s) := by
  by_cases h : s.sp < 2
  · simp only [raises, if_pos h, handleMinus, popOperands_short h]
    exact .raise_self s (by decide)
  · obtain ⟨rest, b, a, hs⟩ := exists_two h
    simp only [raises, if_neg h, handleMinus, popOperands_concat hs, pushAndSucceed_popped hs hc]
    exact .setStk s _

theorem handleMultiply_followsTable (op : Word) {s : State} (hc : s.sp ≤ s.cap) :
    FollowsTable s (raises (.multiply op) s) (handleMultiply s) := by
  by_cases h : s.sp < 2
  · simp only [raises, if_pos h, handleMultiply, popOperands_short h]
    exact .raise_self s (by decide)
  · obtain ⟨rest, b, a, hs⟩ := exists_two h
    simp only [raises, if_neg h, handleMultiply, popOperands_concat hs, topWord_concat hs, secondWord_concat hs]
    exact .checked_popped _ hs hc

theorem handleDivide_followsTable (op : Word) {s : State} (hc : s.sp ≤ s.cap) :
    FollowsTable s (raises (.divide op) s) (handleDivide s) := by
  by_cases h : s.sp < 2
  · simp only [raises, if_pos h, handleDivide, popOperands_short h]
    exact .raise_self s (by decide)
  · obtain ⟨rest, b, a, hs⟩ := exists_two h
    simp only [raises, if_neg h, handleDivide, popOperands_concat hs, topWord_concat hs, secondWord_concat hs]
    split
    · rw [FollowsTable, raisedIn_divisionByZero hs]
    · split
      · rw [restoreAndOverflow_popped hs hc]
        exact .raise_self s (by decide)
      · rw [pushAndSucceed_popped hs hc]
        exact .setStk s _

/-- Every opcode but JUMP ends by `complete` on a handler result that the table decides. -/
theorem exec_eq_complete {i : Instr} {s : State} (hc : s.sp ≤ s.cap) (hi : ∀ op, i ≠ .jump op) :
    ∃ r, exec i s = complete i r ∧ FollowsTable s (raises i s) r := by
  cases i with
  | push op => exact ⟨_, rfl, .push_self op s⟩
  | plus op => exact ⟨_, rfl, handlePlus_followsTable op hc⟩
  | minus op => exact ⟨_, rfl, handleMinus_followsTable op hc⟩
  | multiply op => exact ⟨_, rfl, handleMultiply_followsTable op hc⟩
  | divide op => exact ⟨_, rfl, handleDivide_followsTable op hc⟩
  | dump op => exact ⟨_, rfl, s.stk, _, rfl⟩
  | jump op => exact absurd rfl (hi op)
  | duplicate op => exact ⟨_, rfl, handleDuplicate_followsTable op s⟩

/-- JUMP above `LEN` halts; up to `LEN` it sets `IP` (44_control.md R84). -/
theorem exec_jump_eq (op : Word) (s : State) : exec (.jump op) s =
    if s.len.toNat < op.toNat then .next (halt .illegalPointer (.jump op) s) else .next (s.setIp op) := by
  by_cases h : s.len.toNat < op.toNat <;> simp [exec, execJump, handleJump, jumpTarget, u64, h]

/-- Within capacity, an instruction to which the table gives an error halts with it. -/
theorem exec_of_raises_some {i : Instr} {s : State} {e : ErrorKind} (hc : s.sp ≤ s.cap) (h : raises i s = some e) :
    exec i s = .next (halt e i (raisedIn e s)) := by
  by_cases hi : ∃ op, i = .jump op
  · obtain ⟨op, rfl⟩ := hi
    obtain ⟨hgt, rfl⟩ : s.len.toNat < op.toNat ∧ ErrorKind.illegalPointer = e := by simpa [raises] using h
    rw [exec_jump_eq, if_pos hgt, raisedIn_of_ne (e := .illegalPointer) s (by decide)]
  · obtain ⟨r, hr, hf⟩ := exec_eq_complete hc (not_exists.mp hi)
    rw [h] at hf
    obtain rfl : r = .raise e (raisedIn e s) := hf
    rw [hr, complete_raise]

/-- Within capacity, an instruction other than JUMP to which the table gives no error advances, with nothing else written
but stack and output. -/
theorem exec_of_raises_none {i : Instr} {s : State} (hc : s.sp ≤ s.cap) (hi : ∀ op, i ≠ .jump op)
    (h : raises i s = none) : ∃ stk out, exec i s = .next (advance { s with stk, out }) := by
  obtain ⟨r, hr, hf⟩ := exec_eq_complete hc hi
  rw [h] at hf
  obtain ⟨stk, out, rfl⟩ := hf
  exact ⟨stk, out, hr⟩

/-- JUMP, where the table gives it no error, sets `IP` to its operand. -/
theorem exec_jump_of_raises_none {op : Word} {s : State} (h : raises (.jump op) s = none) :
    exec (.jump op) s = .next (s.setIp op) := by
  have hle : ¬ s.len.toNat < op.toNat := by simpa [raises] using h
  rw [exec_jump_eq, if_neg hle]

end Sys2Proof.Machine
end

section
/-! PROOFS. The engine loop (40_engine_loop.md): the fetch (R66) and the advance of `IP` (R68). -/

namespace Sys2Proof.Machine

/-- In a running state with an instruction at `IP` the step is that instruction's. -/
theorem step_of_fetch {s : State} {i : Instr} (hr : running s = true) (hf : fetch s = some i) : step s = exec i s := by
  simp [step, hr, hf]

/-- In a running state `LEN` is not 0, so it is `N`, and `IP` is inside the program. -/
theorem Inv.ip_lt_length_of_running {s : State} (hinv : Inv s) (hr : running s = true) : s.ip.toNat < s.prog.length := by
  obtain ⟨-, hlt⟩ := (running_iff s).mp hr
  obtain hlen | hlen := hinv.lenIsProgramOrZero
  · exact hlen ▸ hlt
  · simp [hlen] at hlt

/-- Settles O39: the index is inside the program. -/
theorem fetchNeverFails : Obligations.FetchNeverFails := by
  intro s hinv hr
  have hf : fetch s = some (s.prog[s.ip.toNat]'(hinv.ip_lt_length_of_running hr)) := List.getElem?_eq_getElem _
  exact ⟨_, hf, hf, step_of_fetch hr hf⟩

/-- Below another Word, `IP + 1` does not wrap. -/
theorem toNat_add_one_of_lt {v w : Word} (h : v.toNat < w.toNat) : (v + 1).toNat = v.toNat + 1 := by
  bv_omega

/-- Settles O21: the table decides whether the step halts, which keeps `IP`, or sets it, or advances it. -/
theorem pointerAdvancesExceptForJump : Obligations.PointerAdvancesExceptForJump := by
  intro i s t hc ht
  refine ⟨fun herr => ?_, fun hok => ⟨?_, fun hi => ?_⟩⟩
  · obtain ⟨e, he⟩ := Option.ne_none_iff_exists'.mp herr
    cases (exec_of_raises_some hc he).symm.trans ht
    exact raisedIn_ip e s
  · rintro op rfl
    cases (exec_jump_of_raises_none hok).symm.trans ht
    rfl
  · obtain ⟨stk, out, hexec⟩ := exec_of_raises_none hc hi hok
    cases hexec.symm.trans ht
    refine ⟨rfl, fun hlt => ?_⟩
    have hnext : (s.ip + 1).toNat = s.ip.toNat + 1 := toNat_add_one_of_lt hlt
    exact ⟨hnext, hnext.trans_le hlt⟩

end Sys2Proof.Machine
end

section
/-! PROOFS. The order of the operands of MINUS and DIVIDE (42_arithmetic.md R76): each on a stack given by its last two
Words. -/

namespace Sys2Proof.Machine

/-- MINUS on two operands replaces them by the narrowed difference, top minus second, and advances (R80). -/
theorem exec_minus_concat (op : Word) {s : State} {rest : List Word} {b a : Word} (h : s.stk = rest ++ [b, a])
    (hc : s.sp ≤ s.cap) :
    exec (.minus op) s = .next (advance (s.setStk (rest ++ [bits64 (s64 a - s64 b)]))) := by
  have hr : handleMinus s = .success (s.setStk (rest ++ [bits64 (s64 a - s64 b)])) := by
    simp only [handleMinus, popOperands_concat h, pushAndSucceed_popped h hc]
  simp only [exec, execMinus, hr, complete]

/-- DIVIDE on two operands with a divisor that is not zero, and not `MIN64 / -1`, replaces them by the narrowed quotient,
top divided by second, and advances (R82). -/
theorem exec_divide_concat (op : Word) {s : State} {rest : List Word} {b a : Word} (h : s.stk = rest ++ [b, a])
    (hc : s.sp ≤ s.cap) (hb : s64 b ≠ 0) (hov : ¬ (s64 a = min64 ∧ s64 b = -1)) :
    exec (.divide op) s = .next (advance (s.setStk (rest ++ [bits64 ((s64 a).tdiv (s64 b))]))) := by
  have hr : handleDivide s = .success (s.setStk (rest ++ [bits64 ((s64 a).tdiv (s64 b))])) := by
    simp only [handleDivide, popOperands_concat h, if_neg hb, if_neg hov, truncDiv_eq_tdiv, pushAndSucceed_popped h hc]
  simp only [exec, execDivide, hr, complete]

/-- A dividend with an exact quotient up to `MAX64` is not the one overflow case: `MIN64 / -1` is above it (R78). -/
theorem not_min64_neg_one_of_exact {a b q : Int} (h : a = q * b) (hq : q ≤ max64) : ¬ (a = min64 ∧ b = -1) := by
  rintro ⟨rfl, rfl⟩
  simp only [min64, max64] at h hq
  omega

/-- Settles O20: within `MIN64 .. MAX64` the narrowed difference or quotient reads as itself. -/
theorem operandOrderIsTopFirst : Obligations.OperandOrderIsTopFirst := by
  intro op s rest x y hs hc
  refine ⟨fun hlo hhi => ?_, fun q hx hy hlo hhi => ?_⟩
  · exact ⟨_, s64_bits64 ((inRange_iff _).mpr ⟨hlo, hhi⟩), exec_minus_concat op hs hc⟩
  · have hquot : (s64 y).tdiv (s64 x) = q := by rw [hy, Int.mul_tdiv_cancel q hx]
    have hexec := exec_divide_concat op hs hc hx (not_min64_neg_one_of_exact hy hhi)
    rw [hquot] at hexec
    exact ⟨_, s64_bits64 ((inRange_iff q).mpr ⟨hlo, hhi⟩), hexec⟩

end Sys2Proof.Machine
end

section
/-! PROOFS. The codec (30_encoding.md section 4): the decoder answers a program exactly on that program's encoding. -/

namespace Sys2Proof

/-! ### The encoder -/

@[simp] theorem length_encode (p : List Instr) : (encode p).length = 9 * p.length := by
  induction p with
  | nil => rfl
  | cons i p ih => simp [ih]; omega

/-- Record `k` of an encoded program stands at byte offset `9k` (R52). -/
theorem take_drop_encode {p : List Instr} {k : Nat} {i : Instr} (h : p[k]? = some i) :
    ((encode p).drop (9 * k)).take 9 = encodeInstr i := by
  induction p generalizing k with
  | nil => simp at h
  | cons j p ih =>
    cases k with
    | zero =>
      obtain rfl : j = i := by simpa using h
      simp [List.take_append]
    | succ k =>
      have hdrop : (encode (j :: p)).drop (9 * (k + 1)) = (encode p).drop (9 * k) := by
        rw [encode_cons, Nat.mul_succ, Nat.add_comm, ← List.drop_drop, List.drop_left' (length_encodeInstr j)]
      rw [hdrop]
      exact ih h

/-- Nothing stands behind the last record (R52). -/
theorem drop_encode_of_length_le {p : List Instr} {k : Nat} (h : p.length ≤ k) : (encode p).drop (9 * k) = [] :=
  List.drop_of_length_le (by rw [length_encode]; omega)

/-- The tags of an encoded program are its instructions' tags, in order (R53). -/
theorem tags_encode (p : List Instr) : Image.tags (encode p) = p.map Instr.tag := by
  induction p with
  | nil => rfl
  | cons i p ih => simp [encodeInstr, Image.tags, ih]

/-- The record of the instruction that a tag selects is the record read (R49, R50, R53). -/
theorem encodeInstr_of_instrOfTag {r0 r1 r2 r3 r4 r5 r6 r7 r8 : Byte} {i : Instr}
    (h : instrOfTag r0 (le64 r1 r2 r3 r4 r5 r6 r7 r8) = some i) :
    encodeInstr i = [r0, r1, r2, r3, r4, r5, r6, r7, r8] := by
  obtain ⟨htag, hop⟩ := instrOfTag_some h
  simp [encodeInstr, htag, hop]

/-- No record is the record of two instructions. -/
theorem encodeInstr_injective : Function.Injective encodeInstr := by
  intro i j h
  have hdec := Laws.Codec.decode_encodeInstr j
  rw [← h, Laws.Codec.decode_encodeInstr i] at hdec
  simpa using hdec

/-! ### The decoding loop -/

/-- The loop's answer with the records of `p` read before. -/
def Decoded.prepend (p : List Instr) : Decoded → Decoded
  | .program q => .program (p ++ q)
  | .error e => .error e

/-- The loop reads the records of a program back and goes on with the rest. -/
theorem decodeFrom_encode_append (n : Nat) (p : List Instr) (rest : List Byte) :
    decodeFrom n (encode p ++ rest) = (decodeFrom (n + p.length) rest).prepend p := by
  induction p generalizing n with
  | nil => cases h : decodeFrom n rest <;> simp [Decoded.prepend, h]
  | cons i p ih =>
    rw [encode_cons, List.append_assoc, decodeFrom_encodeInstr, ih, List.length_cons, Nat.add_right_comm n 1,
      Nat.add_assoc n]
    cases decodeFrom (n + (p.length + 1)) rest <;> rfl

theorem decodeFrom_encode (n : Nat) (p : List Instr) : decodeFrom n (encode p) = .program p := by
  have h := decodeFrom_encode_append n p []
  simpa [decodeFrom, Decoded.prepend] using h

/-- What the loop reads to its end is the encoding of its answer. -/
theorem encode_of_decodeFrom {n : Nat} {img : List Byte} {p : List Instr} (h : decodeFrom n img = .program p) :
    encode p = img := by
  induction n, img using decodeFrom.induct generalizing p with
  | case1 n =>
    obtain rfl : [] = p := by simpa [decodeFrom] using h
    rfl
  | case2 n r0 r1 r2 r3 r4 r5 r6 r7 r8 rest hnone => simp [decodeFrom, hnone] at h
  | case3 n r0 r1 r2 r3 r4 r5 r6 r7 r8 rest i hi q hq ih =>
    obtain rfl : i :: q = p := by simpa [decodeFrom, hi, hq] using h
    rw [encode_cons, encodeInstr_of_instrOfTag hi, ih hq]
    rfl
  | case4 n r0 r1 r2 r3 r4 r5 r6 r7 r8 rest i hi e he ih => simp [decodeFrom, hi, he] at h
  | case5 n img h1 h2 => simp [decodeFrom] at h

/-! ### The decoder -/

/-- The decoder answers `p` exactly on the encoding of `p`, within `NMAX`. -/
theorem decode_eq_program_iff {img : List Byte} {p : List Instr} :
    decode img = .program p ↔ img = encode p ∧ p.length ≤ Config.nmax := by
  rw [decode_eq]
  constructor
  · intro h
    split at h
    · cases h
    split at h
    · cases h
    · next hmax =>
      obtain rfl := encode_of_decodeFrom h
      rw [length_encode, Nat.mul_div_cancel_left _ (by decide), Nat.not_lt] at hmax
      exact ⟨rfl, hmax⟩
  · rintro ⟨rfl, hp⟩
    simp only [Config.nmax] at hp
    rw [if_neg (by simp), if_neg (by simp [hp]), decodeFrom_encode]

/-- The decoder reads every program within `NMAX` back from its encoding. -/
theorem decode_encode {p : List Instr} (h : Program.wf p = true) : decode (encode p) = .program p :=
  decode_eq_program_iff.mpr ⟨rfl, (programWf_iff p).mp h⟩

/-- Nine bytes or more are a record and a rest. -/
theorem exists_record {img : List Byte} (h : 9 ≤ img.length) :
    ∃ r0 r1 r2 r3 r4 r5 r6 r7 r8 rest, img = r0 :: r1 :: r2 :: r3 :: r4 :: r5 :: r6 :: r7 :: r8 :: rest := by
  match img, h with
  | r0 :: r1 :: r2 :: r3 :: r4 :: r5 :: r6 :: r7 :: r8 :: rest, _ =>
    exact ⟨r0, r1, r2, r3, r4, r5, r6, r7, r8, rest, rfl⟩

/-- An image of whole records with tags up to 7 is the encoding of a program (R54, R55). -/
theorem exists_encode_eq {img : List Byte} (hlen : img.length % 9 = 0) (htags : ∀ t ∈ Image.tags img, t.toNat ≤ 7) :
    ∃ p, encode p = img := by
  induction img using Image.tags.induct with
  | case1 r0 r1 r2 r3 r4 r5 r6 r7 r8 rest ih =>
    simp only [Image.tags, List.forall_mem_cons] at htags
    obtain ⟨hr0, hrest⟩ := htags
    obtain ⟨p, hp⟩ := ih (by simp only [List.length_cons] at hlen; omega) hrest
    obtain ⟨i, hi⟩ := Option.isSome_iff_exists.mp
      ((instrOfTag_isSome r0 (le64 r1 r2 r3 r4 r5 r6 r7 r8)).trans (decide_eq_true hr0))
    exact ⟨i :: p, by rw [encode_cons, encodeInstr_of_instrOfTag hi, hp]; rfl⟩
  | case2 img hshort =>
    have hlt : ¬ 9 ≤ img.length := fun h => by
      obtain ⟨r0, r1, r2, r3, r4, r5, r6, r7, r8, rest, he⟩ := exists_record h
      exact hshort _ _ _ _ _ _ _ _ _ _ he
    exact ⟨[], (List.eq_nil_of_length_eq_zero (by omega)).symm⟩

/-- The three clauses of a well-formed image as propositions. -/
theorem imageWf_iff (img : List Byte) : Image.wf img = true ↔
    img.length % 9 = 0 ∧ img.length / 9 ≤ Config.nmax ∧ ∀ t ∈ Image.tags img, t.toNat ≤ 7 := by
  simp only [Image.wf, Bool.and_eq_true, decide_eq_true_eq, List.all_eq_true]
  rfl

/-- Settles O1: the program is the one whose encoding is decoded. -/
theorem decodeOfEncodeIsTheProgram : Obligations.DecodeOfEncodeIsTheProgram :=
  fun p hp => ⟨decode_encode hp, length_encode p⟩

/-- Settles O2: only its encoding decodes to a program. -/
theorem encodeOfDecodeIsTheImage : Obligations.EncodeOfDecodeIsTheImage := by
  refine ⟨fun img p h => (decode_eq_program_iff.mp h).1.symm, fun img img' p h h' => ?_⟩
  rw [(decode_eq_program_iff.mp h).1, (decode_eq_program_iff.mp h').1]

/-- Settles O3: the images the decoder accepts are the encodings of programs, and these are the well-formed images. -/
theorem decodeAcceptsExactlyWellFormedImages : Obligations.DecodeAcceptsExactlyWellFormedImages := by
  intro img
  simp only [decode_eq_program_iff, imageWf_iff]
  constructor
  · rintro ⟨p, rfl, hp⟩
    refine ⟨by simp, by simpa using hp, ?_⟩
    rw [tags_encode, List.forall_mem_map]
    exact fun i _ => Laws.Codec.tag_le i
  · rintro ⟨hres, hmax, htags⟩
    obtain ⟨p, rfl⟩ := exists_encode_eq hres htags
    exact ⟨p, rfl, by simpa using hmax⟩

/-- Settles O4: the loop reads the good records in front of the bad one. -/
theorem decodeReportsTheFirstDefect : Obligations.DecodeReportsTheFirstDefect := by
  refine ⟨fun img hres => ?_, fun img hres hmax => ?_, fun p t b0 b1 b2 b3 b4 b5 b6 b7 rest ht hres hmax => ?_⟩
  · rw [decode_eq, if_pos hres]
  · simp only [Config.nmax] at hmax
    rw [decode_eq, if_neg (not_not.mpr hres), if_pos hmax]
  · simp only [Config.nmax] at hmax
    rw [decode_eq, if_neg (by simp; omega), if_neg (by simp; omega), decodeFrom_encode_append, decodeFrom_unknown _ ht,
      Nat.zero_add]
    rfl

/-- Settles O5: twelve words, each decoded. -/
theorem tableWordsDecode : Obligations.TableWordsDecode := by
  unfold Obligations.TableWordsDecode
  decide

/-- Settles O6: the image is the encoding of the program. -/
theorem instructionIsItsRecord : Obligations.InstructionIsItsRecord := by
  intro img p h
  obtain ⟨rfl, -⟩ := decode_eq_program_iff.mp h
  exact ⟨length_encode p, fun k i => take_drop_encode⟩

end Sys2Proof

namespace Sys2Proof.Machine

/-- Settles O49: boot follows the decoder, which reads a program's image back. -/
theorem bootLoadsTheImage : Obligations.BootLoadsTheImage := by
  intro cap
  refine ⟨fun img p h => ?_, fun img e h => ?_, fun p hp => ?_⟩
  · rw [bootWith, h]
  · rw [bootWith, h]
  · rw [bootWith, decode_encode hp]

end Sys2Proof.Machine
end

section
/-! PROOFS. The Word (10_state.md section 1) and the laws of its arithmetic (42_arithmetic.md section 1). -/

namespace Sys2Proof.Machine

/-! ### Readings and constructors -/

/-- `u64(bits64(z)) = z mod 2^64` (00_scope.md R6). -/
theorem u64_bits64 (z : Int) : (u64 (bits64 z) : Int) = z % 18446744073709551616 := by
  simp only [u64, bits64, BitVec.toNat_ofNat]
  omega

theorem asUnsigned_fromUnsigned {n : Nat} (h : n < 18446744073709551616) : asUnsigned (fromUnsigned n) = n := by
  have hmod : (asUnsigned (fromUnsigned n) : Int) = n % 18446744073709551616 := u64_bits64 n
  omega

theorem fromUnsigned_asUnsigned (w : Word) : fromUnsigned (asUnsigned w) = w :=
  BitVec.eq_of_toNat_eq (asUnsigned_fromUnsigned w.isLt)

/-- Bit 63 as a field of one bit. -/
theorem ofBool_getLsbD_63 (w : Word) : BitVec.ofBool (w.getLsbD 63) = w.extractLsb' 63 1 := by
  ext k hk
  obtain rfl : k = 0 := by omega
  simp

/-- The three fields of a float side by side are its bit pattern (10_state.md R15). -/
theorem fromFloat_asFloat (w : Word) : fromFloat (asFloat w) = w := by
  simp only [fromFloat, asFloat]
  rw [ofBool_getLsbD_63, extract_append _ _ _ _ _ (by rfl), extract_append _ _ _ _ _ (by rfl)]
  exact BitVec.extractLsb'_eq_self

theorem asFloat_fromFloat (f : Binary64) : asFloat (fromFloat f) = f := by
  obtain ⟨sign, exponent, fraction⟩ := f
  have hsign : (BitVec.ofBool sign ++ exponent ++ fraction).getLsbD 63 = sign := by
    rw [BitVec.getLsbD_append, BitVec.getLsbD_append]
    simp
  have hexp : (BitVec.ofBool sign ++ exponent ++ fraction).extractLsb' 52 11 = exponent := by
    rw [BitVec.extractLsb'_append_eq_of_le (by decide), BitVec.extractLsb'_append_eq_of_add_le (by decide)]
    exact BitVec.extractLsb'_eq_self
  have hfrac : (BitVec.ofBool sign ++ exponent ++ fraction).extractLsb' 0 52 = fraction := by
    rw [BitVec.extractLsb'_append_eq_of_add_le (by decide)]
    exact BitVec.extractLsb'_eq_self
  simp only [asFloat, fromFloat, hsign, hexp, hfrac]

/-- Settles O7: each round trip on its range; the zero Word by evaluation. -/
theorem repackingLosesNoBit : Obligations.RepackingLosesNoBit :=
  ⟨fun z hlo hhi => s64_bits64 ((inRange_iff z).mpr ⟨hlo, hhi⟩),
    fun _ hn => asUnsigned_fromUnsigned hn,
    fun w => ⟨bits64_s64 w, fromUnsigned_asUnsigned w, fromFloat_asFloat w⟩,
    asFloat_fromFloat,
    by decide⟩

/-- Settles O8: `s64` branches on bit 63, which is the sign bit. -/
theorem wordNotation : Obligations.WordNotation := by
  refine ⟨u64_bits64, fun w => ?_⟩
  rw [s64, BitVec.msb_eq_getLsbD_last]
  rfl

/-! ### Sums -/

/-- Narrowing a sum of signed readings is the wrapping sum of the Words. -/
theorem bits64_add (a b : Word) : bits64 (s64 a + s64 b) = a + b := by
  rw [bits64_eq_ofInt, s64_eq_toInt, s64_eq_toInt, BitVec.ofInt_add, BitVec.ofInt_toInt, BitVec.ofInt_toInt]

/-- A sum leaves `MIN64 .. MAX64` exactly where the library says that the addition of the Words overflows. -/
theorem inRange_add_eq_not_saddOverflow (a b : Word) : inRange (s64 a + s64 b) = !a.saddOverflow b := by
  rw [Bool.eq_iff_iff, inRange_iff, s64_eq_toInt, s64_eq_toInt]
  simp only [BitVec.saddOverflow, min64, max64, Bool.not_eq_true', Bool.or_eq_false_iff, decide_eq_false_iff_not]
  omega

/-- Settles O35: the library's law of signed overflow. -/
theorem plusOverflowsBySigns : Obligations.PlusOverflowsBySigns := by
  intro a b
  rw [inRange_add_eq_not_saddOverflow, bits64_add, BitVec.saddOverflow_eq]
  simp

/-! ### Quotients -/

/-- What truncation leaves over is the library's remainder of that division. -/
theorem sub_mul_truncDiv (a b : Int) : a - b * truncDiv a b = a.tmod b := by
  rw [truncDiv_eq_tdiv, Int.tmod_def]

/-- A truncated quotient of a dividend in range leaves the range at `MIN64 / -1` only (42_arithmetic.md R78). -/
theorem inRange_tdiv_eq_false_iff {a b : Int} (ha : inRange a = true) :
    inRange (a.tdiv b) = false ↔ a = min64 ∧ b = -1 := by
  rw [inRange_iff] at ha
  simp only [← Bool.not_eq_true, inRange_iff, min64, max64] at ha ⊢
  constructor
  · intro hout
    have hle : (a.tdiv b).natAbs ≤ a.natAbs := Int.natAbs_tdiv_le_natAbs a b
    obtain rfl : a = -9223372036854775808 := by omega
    have habs : (Int.tdiv (-9223372036854775808) b).natAbs = 9223372036854775808 / b.natAbs := Int.natAbs_tdiv _ b
    have hquot : 9223372036854775808 / b.natAbs = 9223372036854775808 := by omega
    obtain h0 | h1 := Nat.div_eq_self.mp hquot
    · simp at h0
    obtain rfl | hb := Int.natAbs_eq_iff.mp h1
    · simp at hout
    · exact ⟨rfl, hb⟩
  · rintro ⟨rfl, rfl⟩
    decide

/-- The quotient of two Words, but for `MIN64 / -1`, is in range. -/
theorem inRange_tdiv_s64 {a b : Word} (h : ¬ (s64 a = min64 ∧ s64 b = -1)) :
    inRange ((s64 a).tdiv (s64 b)) = true := by
  rw [← Bool.not_eq_false, inRange_tdiv_eq_false_iff (inRange_s64 a)]
  exact h

/-- Settles O36: the library's remainder of division rounding toward zero is below the divisor and has the dividend's
sign. -/
theorem divisionRoundsTowardZero : Obligations.DivisionRoundsTowardZero := by
  refine ⟨fun a b hb => ?_, fun a b _ => ?_⟩
  · rw [sub_mul_truncDiv, Int.natAbs_tmod, Int.sign_tmod]
    refine ⟨Nat.mod_lt _ (Int.natAbs_pos.mpr hb), ?_⟩
    by_cases hdvd : b ∣ a
    · exact .inl (Int.tmod_eq_zero_of_dvd hdvd)
    · exact .inr (if_neg hdvd)
  · rw [truncDiv_eq_tdiv]
    exact inRange_tdiv_eq_false_iff (inRange_s64 a)

end Sys2Proof.Machine
end

section
/-! PROOFS. What each instruction does where it succeeds (41_stack_data.md to 44_control.md) and where it errs
(60_exceptions.md). -/

namespace Sys2Proof.Machine

/-! ### The stack instructions -/

theorem pushAndSucceed_of_ne {v : Word} {s : State} (h : s.sp ≠ s.cap) :
    pushAndSucceed v s = .success (s.setStk (s.stk ++ [v])) := by
  simp only [pushAndSucceed, push_ok h]

theorem pushAndSucceed_full {v : Word} {s : State} (h : s.sp = s.cap) :
    pushAndSucceed v s = .raise .stackOverflow s := by
  simp only [pushAndSucceed, push_full h, retag]

/-- PUSH with room (R73). -/
theorem exec_push_of_ne (op : Word) {s : State} (h : s.sp ≠ s.cap) :
    exec (.push op) s = .next (advance (s.setStk (s.stk ++ [op]))) := by
  rw [exec, execPush, handlePush, pushAndSucceed_of_ne h]
  rfl

/-- PUSH on a full stack (R73). -/
theorem exec_push_full (op : Word) {s : State} (h : s.sp = s.cap) :
    exec (.push op) s = .next (halt .stackOverflow (.push op) s) := by
  rw [exec, execPush, handlePush, pushAndSucceed_full h, complete_raise]

/-- DUPLICATE in range with room (R74). -/
theorem exec_duplicate_of_ne {op : Word} {s : State} (hop : op.toNat < s.sp) (h : s.sp ≠ s.cap) :
    exec (.duplicate op) s = .next (advance (s.setStk (s.stk ++ [s.stk.getD (s.sp - 1 - op.toNat) 0]))) := by
  rw [exec, execDuplicate, handleDuplicate_lt hop, pushAndSucceed_of_ne h, complete_success]

/-- DUPLICATE in range on a full stack (R74). -/
theorem exec_duplicate_full {op : Word} {s : State} (hop : op.toNat < s.sp) (h : s.sp = s.cap) :
    exec (.duplicate op) s = .next (halt .stackOverflow (.duplicate op) s) := by
  rw [exec, execDuplicate, handleDuplicate_lt hop, pushAndSucceed_full h, complete_raise]

/-- DUPLICATE out of range (R74). -/
theorem exec_duplicate_ge {op : Word} {s : State} (hop : s.sp ≤ op.toNat) :
    exec (.duplicate op) s = .next (halt .indexOutOfRange (.duplicate op) s) := by
  rw [exec, execDuplicate, handleDuplicate_ge hop, complete_raise]

/-- Settles O12: the next state of PUSH with room. -/
theorem pushCompletes : Obligations.PushCompletes := fun op _ h => exec_push_of_ne op h

/-- Settles O13: the copied element is a live cell. -/
theorem duplicateCompletes : Obligations.DuplicateCompletes := by
  intro op s hop h
  have hin : s.sp - 1 - op.toNat < s.stk.length := by
    rw [State.sp] at *
    omega
  refine ⟨s.stk.getD (s.sp - 1 - op.toNat) 0, ?_, exec_duplicate_of_ne hop h⟩
  rw [List.getElem?_eq_getElem hin, List.getD_eq_getElem _ _ hin]

/-- Settles O23: the two instructions at a full stack, and DUPLICATE out of range. -/
theorem stackInstructionsHalt : Obligations.StackInstructionsHalt :=
  fun op _ => ⟨exec_push_full op, exec_duplicate_ge, exec_duplicate_full⟩

/-! ### The operators on a stack given by its last two Words -/

section Operands

variable {s : State} {rest : List Word} {b a : Word} (op : Word) (h : s.stk = rest ++ [b, a])
include h

theorem not_sp_lt_two : ¬ s.sp < 2 := by simp [State.sp, h]

/-- The row of PLUS in the table of 60_exceptions.md R89. -/
theorem raises_plus_concat :
    raises (.plus op) s = if inRange (s64 a + s64 b) then none else some .overflow := by
  rw [raises, if_neg (not_sp_lt_two h), topWord_concat h, secondWord_concat h]

/-- The row of MULTIPLY. -/
theorem raises_multiply_concat :
    raises (.multiply op) s = if inRange (s64 a * s64 b) then none else some .overflow := by
  rw [raises, if_neg (not_sp_lt_two h), topWord_concat h, secondWord_concat h]

/-- The row of DIVIDE. -/
theorem raises_divide_concat :
    raises (.divide op) s = if s64 b = 0 then some .divisionByZero
      else if s64 a = min64 ∧ s64 b = -1 then some .overflow else none := by
  rw [raises, if_neg (not_sp_lt_two h), topWord_concat h, secondWord_concat h]

/-- PLUS with a representable sum (R79). -/
theorem exec_plus_concat (hc : s.sp ≤ s.cap) (hr : inRange (s64 a + s64 b) = true) :
    exec (.plus op) s = .next (advance (s.setStk (rest ++ [bits64 (s64 a + s64 b)]))) := by
  simp only [exec, execPlus, handlePlus, popOperands_concat h, pushChecked_popped _ h hc, if_pos hr, complete_success]

/-- MULTIPLY with a representable product (R81). -/
theorem exec_multiply_concat (hc : s.sp ≤ s.cap) (hr : inRange (s64 a * s64 b) = true) :
    exec (.multiply op) s = .next (advance (s.setStk (rest ++ [bits64 (s64 a * s64 b)]))) := by
  simp only [exec, execMultiply, handleMultiply, popOperands_concat h, pushChecked_popped _ h hc, if_pos hr,
    complete_success]

/-- DIVIDE by zero, within capacity or not (R82). -/
theorem exec_divide_zero (hb : s64 b = 0) :
    exec (.divide op) s = .next (halt .divisionByZero (.divide op) (s.setStk rest)) := by
  simp only [exec, execDivide, handleDivide, popOperands_concat h, if_pos hb, complete_raise]

end Operands

/-- Settles O14: a representable sum reads as itself. -/
theorem plusCompletes : Obligations.PlusCompletes := by
  intro op s rest b a h hc hlo hhi
  have hr : inRange (s64 a + s64 b) = true := (inRange_iff _).mpr ⟨hlo, hhi⟩
  exact ⟨_, s64_bits64 hr, exec_plus_concat op h hc hr⟩

/-- Settles O15: the narrowed difference is the wrapping difference of the Words. -/
theorem minusCompletes : Obligations.MinusCompletes := by
  intro op s rest b a h hc
  have hexec := exec_minus_concat op h hc
  rw [bits64_sub] at hexec
  refine ⟨hexec, fun hlo hhi => ?_⟩
  rw [← bits64_sub, s64_bits64 ((inRange_iff _).mpr ⟨hlo, hhi⟩)]

/-- Settles O16: a representable product reads as itself. -/
theorem multiplyCompletes : Obligations.MultiplyCompletes := by
  intro op s rest b a h hc hlo hhi
  have hr : inRange (s64 a * s64 b) = true := (inRange_iff _).mpr ⟨hlo, hhi⟩
  exact ⟨_, s64_bits64 hr, exec_multiply_concat op h hc hr⟩

/-- Settles O17: but for `MIN64 / -1` the quotient is in range, so it reads as itself. -/
theorem divideCompletes : Obligations.DivideCompletes := by
  intro op s rest b a h hc hb hov
  exact ⟨_, s64_bits64 (inRange_tdiv_s64 hov), exec_divide_concat op h hc (mt (s64_eq_zero b).mp hb) hov⟩

/-- Settles O24: the count check of each of the four handlers fails. -/
theorem tooFewOperandsHalt : Obligations.TooFewOperandsHalt := by
  rintro i s ⟨op, rfl | rfl | rfl | rfl⟩ h
  · simp only [exec, execPlus, handlePlus, popOperands_short h, complete_raise]
  · simp only [exec, execMinus, handleMinus, popOperands_short h, complete_raise]
  · simp only [exec, execMultiply, handleMultiply, popOperands_short h, complete_raise]
  · simp only [exec, execDivide, handleDivide, popOperands_short h, complete_raise]

/-- A halt with an error of the table other than `DivisionByZero` is one in the state before. -/
theorem exec_of_raises_ne_divisionByZero {i : Instr} {s : State} {e : ErrorKind} (hc : s.sp ≤ s.cap)
    (h : raises i s = some e) (he : e ≠ .divisionByZero) : exec i s = .next (halt e i s) := by
  rw [exec_of_raises_some hc h, raisedIn_of_ne s he]

theorem inRange_eq_false_iff (r : Int) : inRange r = false ↔ r < min64 ∨ max64 < r := by
  rw [← Bool.not_eq_true, inRange_iff]
  omega

/-- Settles O25: the table gives `Overflow` in each of the three cases. -/
theorem overflowRestoresOperands : Obligations.OverflowRestoresOperands := by
  intro op s rest b a h hc
  refine ⟨fun hr => ?_, fun hr => ?_, fun ha hb => ?_⟩
  · refine exec_of_raises_ne_divisionByZero hc ?_ (by decide)
    rw [raises_plus_concat op h, (inRange_eq_false_iff _).mpr hr]
    rfl
  · refine exec_of_raises_ne_divisionByZero hc ?_ (by decide)
    rw [raises_multiply_concat op h, (inRange_eq_false_iff _).mpr hr]
    rfl
  · refine exec_of_raises_ne_divisionByZero hc ?_ (by decide)
    rw [raises_divide_concat op h, if_neg (by rw [hb]; decide), if_pos ⟨ha, hb⟩]

/-- Settles O26: the zero Word reads as 0. -/
theorem divisionByZeroDropsOperands : Obligations.DivisionByZeroDropsOperands :=
  fun op _ _ _ h => exec_divide_zero op h rfl

/-! ### DUMP, JUMP and the halt -/

/-- Settles O18: DUMP's handler has one path. -/
theorem dumpCompletes : Obligations.DumpCompletes := fun _ _ => rfl

/-- Settles O19: a target up to `LEN` is set as it is. -/
theorem jumpCompletes : Obligations.JumpCompletes := by
  intro op s hle
  rw [exec_jump_eq, if_neg (Nat.not_lt.mpr hle)]
  rfl

/-- Settles O22: the transition written out. -/
theorem haltTransition : Obligations.HaltTransition := fun _ _ _ => rfl

/-- Settles O27: a target above `LEN` is refused. -/
theorem jumpBeyondLengthHalts : Obligations.JumpBeyondLengthHalts := by
  intro op s hgt
  rw [exec_jump_eq, if_pos hgt]

/-- Settles O28: success writes stack, output and `IP` only; an error is raised as the table says. -/
theorem errorTableDecidesOutcome : Obligations.ErrorTableDecidesOutcome := by
  refine fun i s hc => ⟨fun hnone => ?_, fun e he => exec_of_raises_some hc he⟩
  by_cases hi : ∃ op, i = .jump op
  · obtain ⟨op, rfl⟩ := hi
    exact ⟨_, exec_jump_of_raises_none hnone, rfl, rfl, rfl⟩
  · obtain ⟨stk, out, hexec⟩ := exec_of_raises_none hc (not_exists.mp hi) hnone
    exact ⟨_, hexec, rfl, rfl, rfl⟩

/-- Settles O29: each of the seven values of `CAUSE`, by evaluation. -/
theorem causeCodesAreDistinct : Obligations.CauseCodesAreDistinct := by
  refine ⟨fun c => ?_, by decide⟩
  cases c with
  | none => decide
  | some e => cases e <;> decide

end Sys2Proof.Machine
end

section
/-! PROOFS. Frames: what an instruction leaves unchanged where it succeeds and where it halts, and what a handler does not
read (40_engine_loop.md R67, 30_encoding.md R51). -/

namespace Sys2Proof.Machine

/-! ### Success -/

/-- PUSH and DUPLICATE, where the table gives no error, add one cell and advance. -/
theorem exec_adds_cell {i : Instr} {s : State} (hi : ∃ op, i = .push op ∨ i = .duplicate op) (h : raises i s = none) :
    ∃ v, exec i s = .next (advance (s.setStk (s.stk ++ [v]))) := by
  obtain ⟨op, rfl | rfl⟩ := hi
  · have hroom : s.sp ≠ s.cap := by simpa [raises] using h
    exact ⟨_, exec_push_of_ne op hroom⟩
  · obtain ⟨hop, hroom⟩ : op.toNat < s.sp ∧ s.sp ≠ s.cap := by simpa [raises, ite_eq_iff] using h
    exact ⟨_, exec_duplicate_of_ne hop hroom⟩

/-- With fewer than two elements the table gives every operator an error. -/
theorem not_sp_lt_two_of_raises_none {i : Instr} {s : State}
    (hi : ∃ op, i = .plus op ∨ i = .minus op ∨ i = .multiply op ∨ i = .divide op) (h : raises i s = none) :
    ¬ s.sp < 2 := by
  intro hsp
  obtain ⟨op, rfl | rfl | rfl | rfl⟩ := hi <;> simp [raises, hsp] at h

/-- An operator, where the table gives no error, puts one cell in the place of the top two and advances. -/
theorem exec_replaces_two {i : Instr} {s : State}
    (hi : ∃ op, i = .plus op ∨ i = .minus op ∨ i = .multiply op ∨ i = .divide op) (hc : s.sp ≤ s.cap)
    (h : raises i s = none) :
    ∃ rest b a v, s.stk = rest ++ [b, a] ∧ exec i s = .next (advance (s.setStk (rest ++ [v]))) := by
  obtain ⟨rest, b, a, hs⟩ := exists_two (not_sp_lt_two_of_raises_none hi h)
  refine ⟨rest, b, a, ?_⟩
  obtain ⟨op, rfl | rfl | rfl | rfl⟩ := hi
  · have hr : inRange (s64 a + s64 b) = true := by simpa [raises_plus_concat op hs] using h
    exact ⟨_, hs, exec_plus_concat op hs hc hr⟩
  · exact ⟨_, hs, exec_minus_concat op hs hc⟩
  · have hr : inRange (s64 a * s64 b) = true := by simpa [raises_multiply_concat op hs] using h
    exact ⟨_, hs, exec_multiply_concat op hs hc hr⟩
  · obtain ⟨hb, hov⟩ : s64 b ≠ 0 ∧ ¬ (s64 a = min64 ∧ s64 b = -1) := by
      simpa [raises_divide_concat op hs, ite_eq_iff] using h
    exact ⟨_, hs, exec_divide_concat op hs hc hb hov⟩

/-- The six instructions that write the stack: two add a cell, four are operators. -/
theorem adds_cell_or_operator {i : Instr} (h : ∀ op, i ≠ .dump op ∧ i ≠ .jump op) :
    (∃ op, i = .push op ∨ i = .duplicate op) ∨
      ((∃ op, i = .plus op ∨ i = .minus op ∨ i = .multiply op ∨ i = .divide op) ∧
        ∀ op, i ≠ .push op ∧ i ≠ .duplicate op) := by
  cases i with
  | dump op => exact absurd rfl (h op).1
  | jump op => exact absurd rfl (h op).2
  | _ op => simp

/-- Settles O30: a cell is added over the stack, or takes the place of the top two. -/
theorem frameOfStackInstructions : Obligations.FrameOfStackInstructions := by
  intro i s t hc hnone ht hi
  obtain hadd | ⟨hoper, hnot⟩ := adds_cell_or_operator hi
  · obtain ⟨v, hexec⟩ := exec_adds_cell hadd hnone
    cases hexec.symm.trans ht
    refine ⟨rfl, rfl, rfl, rfl, rfl, rfl, rfl, fun _ => ⟨by simp [State.sp], fun k hk => ?_⟩, fun hnot => ?_⟩
    · exact List.getElem?_append_left hk
    · obtain ⟨op, hop⟩ := hadd
      exact absurd hop (not_or.mpr (hnot op))
  · obtain ⟨rest, b, a, v, hs, hexec⟩ := exec_replaces_two hoper hc hnone
    cases hexec.symm.trans ht
    refine ⟨rfl, rfl, rfl, rfl, rfl, rfl, rfl, fun ⟨op, hop⟩ => ?_, fun _ => ⟨by simp [State.sp, hs], ?_⟩⟩
    · exact absurd hop (not_or.mpr (hnot op))
    · have hkept : Kept s (rest ++ [v]) := .popped hs (by simp)
      exact hkept.2

/-- Settles O31: DUMP has one end, JUMP the two on either side of `LEN`. -/
theorem frameOfDumpAndJump : Obligations.FrameOfDumpAndJump := by
  refine fun op s t => ⟨fun ht => ?_, fun ht => ?_⟩
  · cases (dumpCompletes op s).symm.trans ht
    exact ⟨rfl, rfl, rfl, rfl, rfl, rfl, rfl⟩
  · by_cases hle : op.toNat ≤ s.len.toNat
    · cases (jumpCompletes op s hle).symm.trans ht
      exact ⟨rfl, rfl, rfl, fun _ => ⟨rfl, rfl, rfl, rfl⟩⟩
    · cases (jumpBeyondLengthHalts op s (Nat.not_le.mp hle)).symm.trans ht
      exact ⟨rfl, rfl, rfl, fun h => absurd h hle⟩

/-! ### Errors -/

/-- Of the ends of an Exec step on a core that is not halted, one leaves it halted. -/
theorem ExecEnd.exists_halt {i : Instr} {s t : State} (h : ExecEnd i s t) (hs : s.halted = false)
    (ht : t.halted = true) : ∃ e l, Kept s l ∧ t = halt e i (s.setStk l) := by
  cases h with
  | advanced l _ _ _ h => simp [h, hs] at ht
  | dumped _ h => simp [h, hs] at ht
  | jumped op _ _ h => simp [h, hs] at ht
  | halted e l hl _ h => exact ⟨e, l, hl, h⟩

/-- Settles O32: the halt is made over a stack that is kept below the top two. -/
theorem frameOfErrors : Obligations.FrameOfErrors := by
  intro i s t hs hexec ht
  obtain ⟨e, l, hl, rfl⟩ := (ExecEnd.of_exec hexec).exists_halt hs ht
  exact ⟨rfl, rfl, rfl, rfl, hl.2, e, rfl, rfl⟩

/-! ### The unused operand -/

/-- A handler result that raises its error, if any, with the output of `s`. -/
def RaisesWithOut (s : State) (r : HandlerResult) : Prop := ∀ e u, r = .raise e u → u.out = s.out

theorem StackOnly.raisesWithOut {s : State} {k : Nat} {r : HandlerResult} (h : StackOnly s k r) : RaisesWithOut s r := by
  rintro e u rfl
  obtain ⟨l, -, ⟨-, h⟩ | ⟨-, e', h⟩⟩ := h
  · cases h
  · cases h
    rfl

/-- An instruction whose operand is unused ends by `complete` on a handler result that is the same with another operand. -/
theorem exec_eq_complete_of_unused {i : Instr} (op : Word) (s : State) (h : operandUsed (opcodeOf i) = false) :
    ∃ r, RaisesWithOut s r ∧ exec i s = complete i r ∧
      exec (instrOf (opcodeOf i) op) s = complete (instrOf (opcodeOf i) op) r := by
  cases i with
  | push _ => cases h
  | plus _ => exact ⟨_, (handlePlus_stackOnly s).raisesWithOut, rfl, rfl⟩
  | minus _ => exact ⟨_, (handleMinus_stackOnly s).raisesWithOut, rfl, rfl⟩
  | multiply _ => exact ⟨_, (handleMultiply_stackOnly s).raisesWithOut, rfl, rfl⟩
  | divide _ => exact ⟨_, (handleDivide_stackOnly s).raisesWithOut, rfl, rfl⟩
  | dump _ => exact ⟨handleDump s, (nomatch ·, ·, ·), rfl, rfl⟩
  | jump _ => cases h
  | duplicate _ => cases h

@[simp] theorem opcodeOf_instrOf (c : Opcode) (op : Word) : opcodeOf (instrOf c op) = c := by cases c <;> rfl

@[simp] theorem operand_instrOf (c : Opcode) (op : Word) : (instrOf c op).operand = op := by cases c <;> rfl

/-- Settles O33: the handler's result is the same, and only the halt's diagnostic shows the instruction. -/
theorem unusedOperandIsIgnored : Obligations.UnusedOperandIsIgnored := by
  intro i op s t hunused ht
  obtain ⟨r, hout, hi, hj⟩ := exec_eq_complete_of_unused op s hunused
  rw [hj]
  cases r with
  | success u =>
    cases hi.symm.trans ht
    exact ⟨_, rfl, rfl, .inl rfl⟩
  | raise e u =>
    cases hi.symm.trans ht
    have hu : u.out = s.out := hout e u rfl
    exact ⟨_, rfl, rfl, .inr ⟨e, u.stk, u.ip, by simp [hu], by simp [hu]⟩⟩

/-! ### The control state -/

/-- `s` with other values in `IP`, `LEN`, `HALTED` and `CAUSE`. -/
def State.withControl (s : State) (ip len : Word) (halted : Bool) (cause : Option ErrorKind) : State :=
  { s with ip, len, halted, cause }

/-- A state that is itself with the control values of `s` has them. -/
theorem State.control_eq_of_eq_withControl {s t : State} (h : t = t.withControl s.ip s.len s.halted s.cause) :
    t.ip = s.ip ∧ t.len = s.len ∧ t.halted = s.halted ∧ t.cause = s.cause := by
  rw [h]
  exact ⟨rfl, rfl, rfl, rfl⟩

/-- A handler result with its state changed. -/
def HandlerResult.map (f : State → State) : HandlerResult → HandlerResult
  | .success s => .success (f s)
  | .raise e s => .raise e (f s)

/-- A handler that ends in the same way, in the same state but for the control values, whatever these are. -/
def IgnoresControl (h : State → HandlerResult) : Prop :=
  ∀ (s : State) (ip len : Word) (halted : Bool) (cause : Option ErrorKind),
    h (s.withControl ip len halted cause) = (h s).map (·.withControl ip len halted cause)

theorem push_withControl (v : Word) (s : State) (ip len : Word) (halted : Bool) (cause : Option ErrorKind) :
    push v (s.withControl ip len halted cause) = (push v s).map (·.withControl ip len halted cause) := by
  by_cases h : s.sp = s.cap
  · rw [push_full h, push_full (s := s.withControl ip len halted cause) h]
    rfl
  · rw [push_ok h, push_ok (s := s.withControl ip len halted cause) h]
    rfl

theorem pushAndSucceed_ignoresControl (v : Word) : IgnoresControl (pushAndSucceed v) := by
  intro s ip len halted cause
  rw [pushAndSucceed, pushAndSucceed, push_withControl]
  cases push v s <;> rfl

theorem restoreAndOverflow_ignoresControl (a b : Int) : IgnoresControl (restoreAndOverflow a b) := by
  intro s ip len halted cause
  rw [restoreAndOverflow, restoreAndOverflow, push_withControl]
  cases push (bits64 b) s with
  | error e => rfl
  | ok s1 =>
    simp only [Except.map, push_withControl]
    cases push (bits64 a) s1 <;> rfl

theorem pushChecked_ignoresControl (a b r : Int) : IgnoresControl (pushChecked a b r) := by
  intro s ip len halted cause
  unfold pushChecked
  split
  · exact pushAndSucceed_ignoresControl _ s ip len halted cause
  · exact restoreAndOverflow_ignoresControl a b s ip len halted cause

theorem handleDuplicate_ignoresControl (op : Word) : IgnoresControl (handleDuplicate op) := by
  intro s ip len halted cause
  by_cases hop : s.sp ≤ op.toNat
  · rw [handleDuplicate_ge hop, handleDuplicate_ge (s := s.withControl ip len halted cause) hop]
    rfl
  · have hlt : op.toNat < s.sp := Nat.not_le.mp hop
    rw [handleDuplicate_lt hlt, handleDuplicate_lt (s := s.withControl ip len halted cause) hlt]
    exact pushAndSucceed_ignoresControl _ s ip len halted cause

/-- The shape of an operator's handler: an error of the operands is raised, their readings and the state below them go to
`f` (42_arithmetic.md R76, R77). -/
def onOperands (f : Int → Int → State → HandlerResult) (s : State) : HandlerResult :=
  match popOperands s with
  | .error e => .raise e s
  | .ok (a, b, t) => f a b t

theorem handlePlus_eq : handlePlus = onOperands fun a b => pushChecked a b (a + b) := rfl

theorem handleMinus_eq : handleMinus = onOperands fun a b => pushAndSucceed (bits64 (a - b)) := rfl

theorem handleMultiply_eq : handleMultiply = onOperands fun a b => pushChecked a b (a * b) := rfl

/-- What DIVIDE does with its operands' readings (R82). -/
def divideOperands (a b : Int) (s : State) : HandlerResult :=
  if b = 0 then .raise .divisionByZero s
  else if a = min64 ∧ b = -1 then restoreAndOverflow a b s
  else pushAndSucceed (bits64 (truncDiv a b)) s

theorem handleDivide_eq : handleDivide = onOperands divideOperands := rfl

theorem onOperands_ignoresControl {f : Int → Int → State → HandlerResult} (hf : ∀ a b, IgnoresControl (f a b)) :
    IgnoresControl (onOperands f) := by
  intro s ip len halted cause
  by_cases hsp : s.sp < 2
  · rw [onOperands, onOperands, popOperands_short hsp, popOperands_short (s := s.withControl ip len halted cause) hsp]
    rfl
  · obtain ⟨rest, b, a, hs⟩ := exists_two hsp
    rw [onOperands, onOperands, popOperands_concat hs,
      popOperands_concat (s := s.withControl ip len halted cause) hs]
    exact hf _ _ (s.setStk rest) ip len halted cause

theorem divideOperands_ignoresControl (a b : Int) : IgnoresControl (divideOperands a b) := by
  intro s ip len halted cause
  unfold divideOperands
  split
  · rfl
  split
  · exact restoreAndOverflow_ignoresControl a b s ip len halted cause
  · exact pushAndSucceed_ignoresControl _ s ip len halted cause

/-- A handler that reads no control value writes none: run with the values of `s` itself, it ends where it ends. -/
theorem IgnoresControl.map_self {h : State → HandlerResult} (hh : IgnoresControl h) (s : State) :
    h s = (h s).map (·.withControl s.ip s.len s.halted s.cause) :=
  hh s s.ip s.len s.halted s.cause

/-- Every handler but JUMP's (40_engine_loop.md R67). -/
theorem handlers_ignoreControl {h : State → HandlerResult}
    (hh : h = handlePlus ∨ h = handleMinus ∨ h = handleMultiply ∨ h = handleDivide ∨ h = handleDump ∨
      ∃ op, h = handlePush op ∨ h = handleDuplicate op) : IgnoresControl h := by
  obtain rfl | rfl | rfl | rfl | rfl | ⟨op, rfl | rfl⟩ := hh
  · exact handlePlus_eq ▸ onOperands_ignoresControl fun a b => pushChecked_ignoresControl a b (a + b)
  · exact handleMinus_eq ▸ onOperands_ignoresControl fun a b => pushAndSucceed_ignoresControl (bits64 (a - b))
  · exact handleMultiply_eq ▸ onOperands_ignoresControl fun a b => pushChecked_ignoresControl a b (a * b)
  · exact handleDivide_eq ▸ onOperands_ignoresControl divideOperands_ignoresControl
  · exact fun _ _ _ _ _ => rfl
  · exact pushAndSucceed_ignoresControl (pushOperand op)
  · exact handleDuplicate_ignoresControl op

/-- Settles O34: no handler but JUMP's reads the control values, so none writes them. -/
theorem handlersIgnoreControlState : Obligations.HandlersIgnoreControlState := by
  intro h hh s ip len halted cause
  have hign : IgnoresControl h := handlers_ignoreControl hh
  have hself := hign.map_self s
  refine ⟨fun t ht => ⟨?_, ?_⟩, fun e t ht => ⟨?_, ?_⟩⟩
  · exact (hign s ip len halted cause).trans (by rw [ht]; rfl)
  · rw [ht, HandlerResult.map, HandlerResult.success.injEq] at hself
    exact State.control_eq_of_eq_withControl hself
  · exact (hign s ip len halted cause).trans (by rw [ht]; rfl)
  · rw [ht, HandlerResult.map, HandlerResult.raise.injEq] at hself
    exact State.control_eq_of_eq_withControl hself.2

end Sys2Proof.Machine
end

section
/-! PROOFS. The engine loop (40_engine_loop.md section 2), its states without a step, reset and the status port. -/

namespace Sys2Proof.Machine

/-! ### The states with and without a step -/

/-- Only a core that is neither halted nor retired steps (R64, R71). -/
theorem step_next_active {s t : State} (h : step s = .next t) : s.halted = false ∧ s.len ≠ 0 := by
  obtain ⟨hr, -⟩ | ⟨hf, -⟩ := step_next_cases h
  · obtain ⟨hhalt, hlt⟩ := (running_iff s).mp hr
    exact ⟨hhalt, fun hlen => by simp [hlen] at hlt⟩
  · obtain ⟨hhalt, -, hlen⟩ := (finishEnabled_iff s).mp hf
    exact ⟨hhalt, hlen⟩

theorem step_ne_next_of_halted {s : State} (h : s.halted = true) (t : State) : step s ≠ .next t := fun ht => by
  rw [(step_next_active ht).1] at h
  cases h

theorem step_ne_next_of_retired {s : State} (h : s.len = 0) (t : State) : step s ≠ .next t :=
  fun ht => (step_next_active ht).2 h

/-- Finish (R70). -/
theorem step_of_finishEnabled {s : State} (h : finishEnabled s = true) : step s = .next (finish s) := by
  have hr : running s = false := by
    obtain ⟨-, hip, -⟩ := (finishEnabled_iff s).mp h
    simp [running, hip]
  simp [step, hr, h]

/-- Settles O37: the fetch finds the instruction and the step is its `exec`. -/
theorem stepRunsTheFetchedInstruction : Obligations.StepRunsTheFetchedInstruction :=
  fun s _ hhalt hlt hf => step_of_fetch ((running_iff s).mpr ⟨hhalt, hlt⟩) hf

/-- Settles O38: the nine bytes at `9·IP` are a record of the image, which is the encoding of the program, or none. -/
theorem stepRunsTheDecodedRecord : Obligations.StepRunsTheDecodedRecord := by
  intro img s i himg hhalt hlt hrec
  obtain ⟨rfl, -⟩ := decode_eq_program_iff.mp himg
  have hbytes : ((encode s.prog).drop (9 * s.ip.toNat)).take 9 = encodeInstr i := by
    simpa using (decode_eq_program_iff.mp hrec).1
  refine step_of_fetch ((running_iff s).mpr ⟨hhalt, hlt⟩) ?_
  cases hf : fetch s with
  | some j => rw [encodeInstr_injective ((take_drop_encode hf).symm.trans hbytes)]
  | none =>
    rw [drop_encode_of_length_le (List.getElem?_eq_none_iff.mp hf)] at hbytes
    cases hbytes

/-- Settles O40: Finish is enabled, and leaves a retired core. -/
theorem finishRetiresTheCore : Obligations.FinishRetiresTheCore :=
  fun s hhalt hip hlen =>
    ⟨step_of_finishEnabled ((finishEnabled_iff s).mpr ⟨hhalt, hip, hlen⟩), step_ne_next_of_retired rfl⟩

/-- Settles O41: a core that steps is neither halted nor retired. -/
theorem terminatedStatesHaveNoStep : Obligations.TerminatedStatesHaveNoStep :=
  fun _ => ⟨step_ne_next_of_halted, fun _ => step_ne_next_of_retired⟩

/-- Settles O42: a run's first step cannot be made. -/
theorem haltedCoreStaysHalted : Obligations.HaltedCoreStaysHalted := by
  refine fun s h => ⟨fun t hreach => hreach.induct (P := (· = s)) ?_ rfl, rfl⟩
  rintro _ t rfl ht
  exact absurd ht (step_ne_next_of_halted h t)

/-- Settles O43: `IP` is below `LEN` or not, and never below 0. -/
theorem exactlyOneOfRunningHaltedFinished : Obligations.ExactlyOneOfRunningHaltedFinished := by
  intro s
  have hexcl : running s = true ↔ s.halted = false ∧ finished s = false := by
    cases hhalt : s.halted <;> simp [running, finished, hhalt]
  have hexcl' : finished s = true ↔ s.halted = false ∧ running s = false := by
    cases hhalt : s.halted <;> simp [running, finished, hhalt]
  have hterm : terminated s = true ↔ s.halted = true ∨ finished s = true := by simp [terminated]
  refine ⟨hexcl, hexcl', hterm, fun hret => hterm.mpr ?_⟩
  have hlen : s.len = 0 := by simpa [retired] using hret
  cases hhalt : s.halted with
  | true => exact .inl rfl
  | false => exact .inr ((finished_iff s).mpr ⟨hhalt, by simp [hlen]⟩)

/-- Settles O50: a core is terminated exactly when it is not running. -/
theorem statusShowsTerminatedCores : Obligations.StatusShowsTerminatedCores := by
  intro s
  obtain ⟨hrun, hfin, hterm, -⟩ := exactlyOneOfRunningHaltedFinished s
  refine ⟨fun hr => ?_, fun hr => ?_⟩
  · obtain ⟨hhalt, hnot⟩ := hrun.mp hr
    have hnterm : ¬ terminated s = true := by simp [hterm, hhalt, hnot]
    rw [status, if_neg hnterm]
  · have hend : terminated s = true := by
      rw [hterm, hfin, hr]
      cases s.halted <;> simp
    rw [status, if_pos hend]
    rfl

/-- Settles O48: reset writes every field. -/
theorem resetState : Obligations.ResetState := ⟨fun _ => rfl, rfl⟩

/-- A program length within `NMAX` is read back from `LEN`. -/
theorem toNat_ofNat_length {p : List Instr} (h : p.length ≤ Config.nmax) :
    (BitVec.ofNat 64 p.length).toNat = p.length := by
  simp only [Config.nmax] at h
  rw [BitVec.toNat_ofNat]
  omega

/-- Settles O51: the placed instruction stands at `IP` of a running core. -/
theorem placedInstructionRuns : Obligations.PlacedInstructionRuns := by
  intro i s hmax
  by_cases hip : s.ip.toNat < s.prog.length
  · have hplace : placeInstr i s =
        { s with prog := s.prog.set s.ip.toNat i, len := BitVec.ofNat 64 s.prog.length, halted := false, cause := none } :=
      if_pos hip
    rw [hplace]
    refine step_of_fetch ((running_iff _).mpr ⟨rfl, ?_⟩) (List.getElem?_set_self hip)
    exact hip.trans_eq (toNat_ofNat_length hmax).symm
  · have hplace : placeInstr i s = { s with prog := [i], ip := 0, len := 1, halted := false, cause := none } := if_neg hip
    rw [hplace]
    exact step_of_fetch rfl rfl

/-! ### What one step can do to length, output and stack -/

/-- An Exec step zeroes `LEN` only when it halts, appends one event at most, and then writes `CAUSE` only when it halts. -/
theorem ExecEnd.forward {i : Instr} {s t : State} (h : ExecEnd i s t) :
    (t.len = s.len ∨ t.len = 0) ∧ (t.out = s.out ∨ ∃ e, t.out = s.out ++ [e]) ∧
      (t.halted = false → t.cause = s.cause) := by
  cases h with
  | advanced l _ _ _ h => exact h ▸ ⟨.inl rfl, .inl rfl, fun _ => rfl⟩
  | dumped _ h => exact h ▸ ⟨.inl rfl, .inr ⟨_, rfl⟩, fun _ => rfl⟩
  | jumped op _ _ h => exact h ▸ ⟨.inl rfl, .inl rfl, fun _ => rfl⟩
  | halted e l _ _ h => exact h ▸ ⟨.inr rfl, .inr ⟨_, rfl⟩, nofun⟩

/-- Settles O44: an Exec step and Finish. -/
theorem stepsOnlyMoveForward : Obligations.StepsOnlyMoveForward := by
  intro s t h
  refine ⟨(step_next_active h).1, ?_⟩
  obtain ⟨-, i, -, -, hend⟩ | ⟨-, rfl⟩ := step_next_cases h
  · exact hend.forward
  · exact ⟨.inr rfl, .inl rfl, fun _ => rfl⟩

/-- An Exec step takes one cell at most, or two where it halts, and stays within capacity. -/
theorem ExecEnd.sp_bounds {i : Instr} {s t : State} (h : ExecEnd i s t) :
    (t.halted = false → s.sp ≤ t.sp + 1) ∧ s.sp ≤ t.sp + 2 ∧ (s.sp ≤ s.cap → t.sp ≤ s.cap) := by
  cases h with
  | advanced l hl hsp _ h => exact h ▸ ⟨fun _ => hsp, Nat.le_succ_of_le hsp, hl.1⟩
  | dumped _ h => exact h ▸ ⟨fun _ => Nat.le_add_right _ _, Nat.le_add_right _ _, id⟩
  | jumped op _ _ h => exact h ▸ ⟨fun _ => Nat.le_add_right _ _, Nat.le_add_right _ _, id⟩
  | halted e l hl hsp h => exact h ▸ ⟨nofun, hsp, hl.1⟩

/-- Within capacity, an Exec step that takes two cells halts with `DivisionByZero` (R95). -/
theorem exec_takes_two {i : Instr} {s t : State} (hs : s.halted = false) (hc : s.sp ≤ s.cap)
    (h : exec i s = .next t) (hsp : s.sp = t.sp + 2) : t.halted = true ∧ t.cause = some .divisionByZero := by
  cases he : raises i s with
  | none =>
    obtain ⟨u, hu, hhalt, -⟩ := (errorTableDecidesOutcome i s hc).1 he
    cases hu.symm.trans h
    have hone := (ExecEnd.of_exec h).sp_bounds.1 (hhalt.trans hs)
    omega
  | some e =>
    cases (exec_of_raises_some hc he).symm.trans h
    by_cases hz : e = .divisionByZero
    · exact ⟨rfl, congrArg some hz⟩
    · rw [raisedIn_of_ne s hz, sp_halt] at hsp
      omega

/-- Settles O46: an Exec step takes two cells at most; Finish takes none. -/
theorem stackFallsByAtMostOne : Obligations.StackFallsByAtMostOne := by
  intro s t h
  obtain ⟨hr, i, -, hexec, hend⟩ | ⟨-, rfl⟩ := step_next_cases h
  · obtain ⟨hone, htwo, hcap⟩ := hend.sp_bounds
    exact ⟨hone, htwo, fun hc => ⟨hcap hc, exec_takes_two ((running_iff s).mp hr).1 hc hexec⟩⟩
  · simp

/-! ### The flow of control -/

/-- `IP` after an instruction that does not halt the core (R68). -/
def nextIp (i : Instr) (ip : Word) : Word :=
  match i with
  | .jump op => op
  | _ => ip + 1

theorem nextIp_of_ne_jump {i : Instr} (h : ∀ op, i ≠ .jump op) (ip : Word) : nextIp i ip = ip + 1 := by
  cases i with
  | jump op => exact absurd rfl (h op)
  | _ op => rfl

/-- An Exec step that does not halt gives `IP` by instruction and `IP` alone, and writes nothing else of the control
state. -/
theorem ExecEnd.control {i : Instr} {s t : State} (h : ExecEnd i s t) (ht : t.halted = false) :
    t.ip = nextIp i s.ip ∧ t.len = s.len ∧ t.halted = s.halted := by
  cases h with
  | advanced l _ _ hi h => exact h ▸ ⟨(nextIp_of_ne_jump hi _).symm, rfl, rfl⟩
  | dumped hi h => exact h ▸ ⟨(nextIp_of_ne_jump hi _).symm, rfl, rfl⟩
  | jumped op hi _ h => exact h ▸ hi ▸ ⟨rfl, rfl, rfl⟩
  | halted e l _ _ h => simp [h] at ht

section SameControl

variable {s t : State} (h : SameControl s t)
include h

theorem SameControl.running_eq : running s = running t := by
  obtain ⟨-, hip, hlen, hhalt⟩ := h
  rw [running, running, hip, hlen, hhalt]

theorem SameControl.finishEnabled_eq : finishEnabled s = finishEnabled t := by
  obtain ⟨-, hip, hlen, hhalt⟩ := h
  rw [finishEnabled, finishEnabled, hip, hlen, hhalt]

theorem SameControl.fetch_eq : fetch s = fetch t := by
  obtain ⟨hprog, hip, -, -⟩ := h
  rw [fetch, fetch, hprog, hip]

/-- Where neither step halts, both cores run one instruction, or both finish. -/
theorem SameControl.of_step {s' t' : State} (hs : step s = .next s') (ht : step t = .next t') (hs' : s'.halted = false)
    (ht' : t'.halted = false) : SameControl s' t' := by
  have hprog : s'.prog = t'.prog := by
    rw [(step_prog_cap_eq hs).1, (step_prog_cap_eq ht).1, h.1]
  obtain ⟨hr, i, hf, -, hends⟩ | ⟨hf, rfl⟩ := step_next_cases hs
  · rw [step_of_fetch (h.running_eq ▸ hr) (h.fetch_eq ▸ hf)] at ht
    obtain ⟨hips, hlens, hhalts⟩ := hends.control hs'
    obtain ⟨hipt, hlent, hhaltt⟩ := (ExecEnd.of_exec ht).control ht'
    obtain ⟨-, hip, hlen, hhalt⟩ := h
    exact ⟨hprog, by rw [hips, hipt, hip], by rw [hlens, hlent, hlen], by rw [hhalts, hhaltt, hhalt]⟩
  · cases (step_of_finishEnabled (h.finishEnabled_eq ▸ hf)).symm.trans ht
    exact ⟨hprog, h.2.1, rfl, h.2.2.2⟩

end SameControl

/-- A run of one step and more is that step and the rest of the run. -/
theorem run_succ_eq_next {n : Nat} {s u : State} (h : Sys2Proof.core.run (n + 1) s = .next u) :
    ∃ t, step s = .next t ∧ Sys2Proof.core.run n t = .next u := by
  cases hs : step s with
  | next t => exact ⟨t, rfl, by simpa [Host.Core.run, Sys2Proof.core, hs] using h⟩
  | fault r => simp [Host.Core.run, Sys2Proof.core, hs] at h
  | refused r => simp [Host.Core.run, Sys2Proof.core, hs] at h

/-- A run that ends in a core not halted began in one. -/
theorem not_halted_of_run {n : Nat} {s t : State} (h : Sys2Proof.core.run n s = .next t) (ht : t.halted = false) :
    s.halted = false := by
  cases n with
  | zero =>
    cases h
    exact ht
  | succ n =>
    obtain ⟨_, hstep, -⟩ := run_succ_eq_next h
    exact (step_next_active hstep).1

/-- Settles O47, by induction on the number of steps: the first step of both runs is made by one instruction, or is
Finish. -/
theorem controlFlowIgnoresTheStack : Obligations.ControlFlowIgnoresTheStack := by
  intro n
  induction n with
  | zero =>
    intro s t s' t' h hs ht _ _
    cases hs
    cases ht
    exact h
  | succ n ih =>
    intro s t s' t' h hs ht hs' ht'
    obtain ⟨s1, hstep, hruns⟩ := run_succ_eq_next hs
    obtain ⟨t1, hstept, hrunt⟩ := run_succ_eq_next ht
    have hsame : SameControl s1 t1 :=
      h.of_step hstep hstept (not_halted_of_run hruns hs') (not_halted_of_run hrunt ht')
    exact ih s1 t1 s' t' hsame hruns hrunt hs' ht'

end Sys2Proof.Machine
end

section
/-! PROOFS. The invariants of 10_state.md R33: at reset, after every step, along every run, and what they give. -/

namespace Sys2Proof.Machine

/-! ### Reset -/

/-- The invariants at reset of a program within `NMAX` (R32, R33). -/
theorem Inv.fresh (cap : Nat) {p : List Instr} (h : p.length ≤ Config.nmax) : Inv (State.fresh cap p) where
  programFits := h
  stackBounded := Nat.zero_le _
  pointerInProgram := Nat.zero_le _
  lenIsProgramOrZero := .inl (toNat_ofNat_length h)
  retiredAtEnd _ hlen := by
    have hlen' : (BitVec.ofNat 64 p.length).toNat = 0 := congrArg BitVec.toNat hlen
    rw [toNat_ofNat_length h] at hlen'
    exact hlen'.symm
  haltedRetired := nofun
  causeOnlyWhenHalted _ := rfl
  noDiagBeforeHalt _ := nofun
  haltedDiagnostic := nofun

/-- Settles O52: a well-formed program is one within `NMAX`. -/
theorem invariantHoldsAtReset : Obligations.InvariantHoldsAtReset :=
  ⟨fun cap p hp => .fresh cap ((programWf_iff p).mp hp), .fresh _ (Nat.zero_le _)⟩

/-! ### Steps -/

/-- In a core that steps `LEN` is `N`. -/
theorem Inv.len_eq {s : State} (hinv : Inv s) (hlen : s.len ≠ 0) : s.len.toNat = s.prog.length :=
  hinv.lenIsProgramOrZero.resolve_right hlen

/-- A step of a running core that writes stack, `IP` and output only, all within their bounds, keeps the invariants. -/
theorem Inv.of_exec {s : State} (hinv : Inv s) (hr : running s = true) {stk : List Word} {ip : Word} {out : List Event}
    (hstk : stk.length ≤ s.cap) (hip : ip.toNat ≤ s.len.toNat) (hout : noDiag out) :
    Inv { s with stk, ip, out } := by
  obtain ⟨hhalt, hlt⟩ := (running_iff s).mp hr
  have hlen : s.len ≠ 0 := fun h => by simp [h] at hlt
  exact
    { programFits := hinv.programFits
      stackBounded := hstk
      pointerInProgram := hip.trans_eq (hinv.len_eq hlen)
      lenIsProgramOrZero := hinv.lenIsProgramOrZero
      retiredAtEnd := fun _ h => absurd h hlen
      haltedRetired := hinv.haltedRetired
      causeOnlyWhenHalted := hinv.causeOnlyWhenHalted
      noDiagBeforeHalt := fun _ => hout
      haltedDiagnostic := fun h => absurd h (by simp [hhalt]) }

/-- A halt of a core with the fetched instruction, over a stack within capacity, keeps the invariants (R93, R94). -/
theorem Inv.halt {s : State} (hinv : Inv s) (hhalt : s.halted = false) {i : Instr} (hf : fetch s = some i)
    (e : ErrorKind) {stk : List Word} (hstk : stk.length ≤ s.cap) : Inv (halt e i (s.setStk stk)) where
  programFits := hinv.programFits
  stackBounded := hstk
  pointerInProgram := hinv.pointerInProgram
  lenIsProgramOrZero := .inr rfl
  retiredAtEnd := nofun
  haltedRetired _ := rfl
  causeOnlyWhenHalted := nofun
  noDiagBeforeHalt := nofun
  haltedDiagnostic _ := ⟨e, i, s.out, rfl, hf, hinv.noDiagBeforeHalt hhalt, rfl⟩

/-- Finish keeps the invariants: it is made at `IP = N` (R70). -/
theorem Inv.finish {s : State} (hinv : Inv s) (h : finishEnabled s = true) : Inv (finish s) := by
  obtain ⟨hhalt, hip, hlen⟩ := (finishEnabled_iff s).mp h
  exact
    { programFits := hinv.programFits
      stackBounded := hinv.stackBounded
      pointerInProgram := hinv.pointerInProgram
      lenIsProgramOrZero := .inr rfl
      retiredAtEnd := fun _ _ => hip ▸ hinv.len_eq hlen
      haltedRetired := fun _ => rfl
      causeOnlyWhenHalted := hinv.causeOnlyWhenHalted
      noDiagBeforeHalt := hinv.noDiagBeforeHalt
      haltedDiagnostic := fun h => absurd h (by simp [hhalt]) }

/-- A dump is no diagnostic. -/
theorem noDiag_append_dump {es : List Event} (h : noDiag es) (words : List Word) : noDiag (es ++ [.dump words]) := by
  intro e he
  obtain he | he := List.mem_append.mp he
  · exact h e he
  · cases List.mem_singleton.mp he
    rfl

/-- Every end of an Exec step keeps the invariants. -/
theorem ExecEnd.keeps_inv {i : Instr} {s t : State} (h : ExecEnd i s t) (hinv : Inv s) (hr : running s = true)
    (hf : fetch s = some i) : Inv t := by
  obtain ⟨hhalt, hlt⟩ := (running_iff s).mp hr
  have hnext : (s.ip + 1).toNat ≤ s.len.toNat := (toNat_add_one_of_lt hlt).trans_le hlt
  have hout : noDiag s.out := hinv.noDiagBeforeHalt hhalt
  cases h with
  | advanced l hl _ _ h => exact h ▸ hinv.of_exec hr (hl.1 hinv.stackBounded) hnext hout
  | dumped _ h => exact h ▸ hinv.of_exec hr hinv.stackBounded hnext (noDiag_append_dump hout s.stk)
  | jumped op _ hle h => exact h ▸ hinv.of_exec hr hinv.stackBounded hle hout
  | halted e l hl _ h => exact h ▸ hinv.halt hhalt hf e (hl.1 hinv.stackBounded)

/-- Settles O53: every end of Exec, and Finish. -/
theorem stepKeepsTheInvariant : Obligations.StepKeepsTheInvariant := by
  intro s t hinv h
  obtain ⟨hr, i, hf, -, hend⟩ | ⟨hfin, rfl⟩ := step_next_cases h
  · exact hend.keeps_inv hinv hr hf
  · exact hinv.finish hfin

/-! ### Progress and runs -/

/-- A core with the invariants that is neither halted, running nor retired stands at `IP = LEN`. -/
theorem Inv.finishEnabled_of_not_running {s : State} (hinv : Inv s) (hr : running s = false) (hlen : s.len ≠ 0) :
    finishEnabled s = true := by
  have hhalt : s.halted = false := Bool.eq_false_iff.mpr (mt hinv.haltedRetired hlen)
  have hge : s.len.toNat ≤ s.ip.toNat := by simpa [running, hhalt] using hr
  have hle : s.ip.toNat ≤ s.len.toNat := hinv.pointerInProgram.trans_eq (hinv.len_eq hlen).symm
  exact (finishEnabled_iff s).mpr ⟨hhalt, BitVec.eq_of_toNat_eq (hle.antisymm hge), hlen⟩

/-- Settles O55: a core that is not retired runs the instruction at `IP`, or finishes. -/
theorem invariantGivesProgress : Obligations.InvariantGivesProgress := by
  intro s hinv
  by_cases hlen : s.len = 0
  · exact .inr ⟨hlen, step_ne_next_of_retired hlen⟩
  refine .inl ?_
  cases hr : running s with
  | true =>
    obtain ⟨i, -, -, hstep⟩ := fetchNeverFails s hinv hr
    obtain ⟨t, hexec, -⟩ := exec_cases i s
    exact ⟨t, hstep.trans hexec⟩
  | false => exact ⟨_, step_of_finishEnabled (hinv.finishEnabled_of_not_running hr hlen)⟩

/-- Settles O54: the invariants hold at reset and every step keeps them. -/
theorem runsAreSafe : Obligations.RunsAreSafe := by
  intro cap p s hp hreach
  have hinv : Inv s := hreach.induct stepKeepsTheInvariant (invariantHoldsAtReset.1 cap p hp)
  exact ⟨hinv, invariantGivesProgress s hinv⟩

end Sys2Proof.Machine
end
